-- ==== Sys2Proof/Word.lean ====
section
/-!
DEFINITION. The machine's bit widths (00_scope.md R4, R8; 30_encoding.md R41).
-/

namespace Sys2Proof

/-- One slot of the state array, and one draw: a 32-bit pattern. It is read as a signed number by `BitVec.toInt`
(two's complement, 00_scope.md R8; PRESUMED by the spec itself, log entry 8) and as an unsigned number by `BitVec.toNat`
(the spec's `u32`). -/
abbrev Word := BitVec 32

/-- One byte of a value beat (20_memory.md R33). -/
abbrev Byte := BitVec 8

/-- One command word, `cmd[63:0]` (30_encoding.md R41). -/
abbrev Command := BitVec 64

end Sys2Proof
end

