-- ==== Sys2Proof/Config.lean ====
section
/-!
DEFINITION. What the spec leaves to the implementation (00_scope.md R5): the parameters at the values the spec takes,
the parameters it leaves OPEN, and the free values of a reset. A free value is an opaque constant without a body, so no
proof can know it.
-/

namespace Sys2Proof

/-- The two narrowing modes of 00_scope.md R5 and R8: to nearest with ties to even, and toward zero. -/
inductive Rounding where
  /-- Round to nearest, ties to even. -/
  | rne
  /-- Round toward zero. -/
  | rtz
  deriving DecidableEq, Repr

namespace Config

/-- `F64_ROUND` (R5, 92_eei_decisions.md D9): the rounding of the product in binary64. -/
def f64Round : Rounding := .rne

/-- `F32_NARROW` (R5, R89, D10): the rounding when the binary64 product is narrowed to binary32. -/
def f32Narrow : Rounding := .rtz

/-- `DEC_SUPPORTED` (R5, D11): 0, so that the two decimal commands raise UnsupportedType. -/
def decSupported : Bool := false

/-- `DEC_W` (R5, D11): OPEN; the bits of a decimal value where `DEC_SUPPORTED = 1` (log entry 6, DESIGN CHOICE). -/
opaque decWidth : Nat

/-- `dec_scale` (R5, R91, D11): OPEN; of it a proof may use only that it is a function of the draw
(log entry 6, DESIGN CHOICE). -/
opaque decScale : Word → BitVec decWidth

/-- What reset number `n` leaves in slot `i` (10_state.md R22, 70_reset_and_hazards.md R140, R141): a free value
(log entry 1, DESIGN CHOICE). -/
opaque resetSlot : Nat → Fin 56 → Word

/-- What reset number `n` leaves in `cursorA` (R22, R140): a free value (log entry 1, DESIGN CHOICE). -/
opaque resetCursorA : Nat → Fin 56

/-- What reset number `n` leaves in `cursorB` (R22, R140): a free value (log entry 1, DESIGN CHOICE). -/
opaque resetCursorB : Nat → Fin 56

end Config

end Sys2Proof
end

