-- ==== Sys2Proof/Syntax.lean ====
section
/-!
DEFINITION. The 26 commands of the command set GRCORE-1 (30_encoding.md R50; spec/opcode_table.json), one constructor
per row, with the operands of R44: `seed` is `sint32(IMM)`, `size` is `SIZE` in bytes, `n` is the count `IMM`.
-/

namespace Sys2Proof

/-- A decoded command (30_encoding.md R50). The ranges of the operands are `Instr.WellFormed`. -/
inductive Instr where
  /-- `SEED seed` (R60). -/
  | seed (seed : Int)
  /-- `DRAW` (R69). -/
  | draw
  /-- `SAMPLE.I8` (R81). -/
  | sampleI8
  /-- `SAMPLE.I16` (R82). -/
  | sampleI16
  /-- `SAMPLE.I32` (R83). -/
  | sampleI32
  /-- `SAMPLE.I64` (R84). -/
  | sampleI64
  /-- `SAMPLE.U8` (R85). -/
  | sampleU8
  /-- `SAMPLE.U16` (R86). -/
  | sampleU16
  /-- `SAMPLE.U32` (R87). -/
  | sampleU32
  /-- `SAMPLE.U64` (R88). -/
  | sampleU64
  /-- `SAMPLE.F32` (R89). -/
  | sampleF32
  /-- `SAMPLE.F64` (R90). -/
  | sampleF64
  /-- `SAMPLE.DEC` (R91). -/
  | sampleDec
  /-- `SAMPLE.RAW size` (R92). -/
  | sampleRaw (size : Nat)
  /-- `FILL.I8 n` (R101). -/
  | fillI8 (n : Nat)
  /-- `FILL.I16 n` (R102). -/
  | fillI16 (n : Nat)
  /-- `FILL.I32 n` (R103). -/
  | fillI32 (n : Nat)
  /-- `FILL.I64 n` (R104). -/
  | fillI64 (n : Nat)
  /-- `FILL.U8 n` (R105). -/
  | fillU8 (n : Nat)
  /-- `FILL.U16 n` (R106). -/
  | fillU16 (n : Nat)
  /-- `FILL.U32 n` (R107). -/
  | fillU32 (n : Nat)
  /-- `FILL.U64 n` (R108). -/
  | fillU64 (n : Nat)
  /-- `FILL.F32 n` (R109). -/
  | fillF32 (n : Nat)
  /-- `FILL.F64 n` (R110). -/
  | fillF64 (n : Nat)
  /-- `FILL.DEC n` (R111). -/
  | fillDec (n : Nat)
  /-- `FILL.RAW size, n` (R112). -/
  | fillRaw (size : Nat) (n : Nat)
  deriving DecidableEq, Repr

end Sys2Proof
end

