-- ==== Sys2Proof/WellFormed.lean ====
section
/-!
DEFINITION. The operand ranges of 30_encoding.md R44 and R54: what the fields of a command word can hold.
-/

namespace Sys2Proof

/-- A seed is a signed 32-bit integer, in [-2^31, 2^31 - 1] (R44). -/
abbrev SeedOk (seed : Int) : Prop := -2147483648 ≤ seed ∧ seed ≤ 2147483647

/-- A raw size is an unsigned 16-bit integer, in [0, 65535] (R44, `MAX_RAW_BYTES` of R5). -/
abbrev SizeOk (size : Nat) : Prop := size ≤ 65535

/-- A fill count is an unsigned 32-bit integer, in [0, 2^32 - 1] (R44, `MAX_FILL` of R5). -/
abbrev CountOk (n : Nat) : Prop := n ≤ 4294967295

/-- The check of every operand of a command. -/
def Instr.wellFormed : Instr → Bool
  | .seed z => decide (SeedOk z)
  | .draw => true
  | .sampleI8 => true
  | .sampleI16 => true
  | .sampleI32 => true
  | .sampleI64 => true
  | .sampleU8 => true
  | .sampleU16 => true
  | .sampleU32 => true
  | .sampleU64 => true
  | .sampleF32 => true
  | .sampleF64 => true
  | .sampleDec => true
  | .sampleRaw size => decide (SizeOk size)
  | .fillI8 n => decide (CountOk n)
  | .fillI16 n => decide (CountOk n)
  | .fillI32 n => decide (CountOk n)
  | .fillI64 n => decide (CountOk n)
  | .fillU8 n => decide (CountOk n)
  | .fillU16 n => decide (CountOk n)
  | .fillU32 n => decide (CountOk n)
  | .fillU64 n => decide (CountOk n)
  | .fillF32 n => decide (CountOk n)
  | .fillF64 n => decide (CountOk n)
  | .fillDec n => decide (CountOk n)
  | .fillRaw size n => decide (SizeOk size) && decide (CountOk n)

/-- Every operand is a value its field can hold. -/
abbrev Instr.WellFormed (i : Instr) : Prop := i.wellFormed = true

end Sys2Proof
end

