-- ==== Sys2Proof/Decode.lean ====
section
/-!
DEFINITION. The command word: its fields, the decoder in the order of 30_encoding.md R48, the encoder of R54, and the
rows of the opcode map R50.
-/

namespace Sys2Proof

/-- The three kinds of error (60_exceptions.md R120). Each ends the command with a completion record of its code; the
machine goes on. Raised by: `decode` (the first two rows below) and the check of `seeded`. -/
inductive ErrorKind where
  /-- A SAMPLE or FILL of a type that is reserved or not supported (R121). -/
  | unsupportedType
  /-- DRAW, SAMPLE or FILL before the first SEED (R122). -/
  | notSeeded
  /-- A word that is no command (R123). -/
  | illegalCommand
  deriving DecidableEq, Repr

/-- `OPC = cmd[63:56]` (R41). -/
def opcField (w : Command) : BitVec 8 := w.extractLsb' 56 8

/-- `TYPE = cmd[55:48]` (R41). -/
def typeField (w : Command) : BitVec 8 := w.extractLsb' 48 8

/-- `SIZE = cmd[47:32]` (R41). -/
def sizeField (w : Command) : BitVec 16 := w.extractLsb' 32 16

/-- `IMM = cmd[31:0]` (R41). -/
def immField (w : Command) : BitVec 32 := w.extractLsb' 0 32

/-- The word with the given fields, `{OPC, TYPE, SIZE, IMM}` (R54). -/
def mkCommand (opc type : BitVec 8) (size : BitVec 16) (imm : BitVec 32) : Command :=
  ((opc ++ type) ++ size) ++ imm

/-- The SAMPLE command of a TYPE value (R43). A reserved value has been rejected before; here it is rejected too. -/
def sampleOf (type size : Nat) : Except ErrorKind Instr :=
  match type with
  | 0 => .ok .sampleI8
  | 1 => .ok .sampleI16
  | 2 => .ok .sampleI32
  | 3 => .ok .sampleI64
  | 4 => .ok .sampleU8
  | 5 => .ok .sampleU16
  | 6 => .ok .sampleU32
  | 7 => .ok .sampleU64
  | 8 => .ok .sampleF32
  | 9 => .ok .sampleF64
  | 10 => .ok .sampleDec
  | 11 => .ok (.sampleRaw size)
  | _ => .error .unsupportedType

/-- The FILL command of a TYPE value (R43). A reserved value has been rejected before; here it is rejected too. -/
def fillOf (type size n : Nat) : Except ErrorKind Instr :=
  match type with
  | 0 => .ok (.fillI8 n)
  | 1 => .ok (.fillI16 n)
  | 2 => .ok (.fillI32 n)
  | 3 => .ok (.fillI64 n)
  | 4 => .ok (.fillU8 n)
  | 5 => .ok (.fillU16 n)
  | 6 => .ok (.fillU32 n)
  | 7 => .ok (.fillU64 n)
  | 8 => .ok (.fillF32 n)
  | 9 => .ok (.fillF64 n)
  | 10 => .ok (.fillDec n)
  | 11 => .ok (.fillRaw size n)
  | _ => .error .unsupportedType

/-- Lines 1 to 4 of R48 on the four fields, with `DEC_SUPPORTED` an argument; the first line that applies decides.
While decimal is not supported, a decimal word with a non-zero must-be-zero field is rejected here with UnsupportedType,
and one without decodes to its command, whose meaning raises UnsupportedType (R50; log entry 11, DEDUCED). -/
def decodeFields (dec : Bool) (opc type : BitVec 8) (size : BitVec 16) (imm : BitVec 32) :
    Except ErrorKind Instr :=
  if opc = 0x01#8 then
    if type ≠ 0 ∨ size ≠ 0 then .error .illegalCommand else .ok (.seed imm.toInt)
  else if opc = 0x02#8 then
    if type ≠ 0 ∨ size ≠ 0 ∨ imm ≠ 0 then .error .illegalCommand else .ok .draw
  else if opc = 0x03#8 then
    if type.toNat > 0x0B then .error .unsupportedType
    else if type = 0x0A#8 ∧ dec = false ∧ (size ≠ 0 ∨ imm ≠ 0) then .error .unsupportedType
    else if type ≠ 0x0B#8 ∧ size ≠ 0 then .error .illegalCommand
    else if imm ≠ 0 then .error .illegalCommand
    else sampleOf type.toNat size.toNat
  else if opc = 0x04#8 then
    if type.toNat > 0x0B then .error .unsupportedType
    else if type = 0x0A#8 ∧ dec = false ∧ size ≠ 0 then .error .unsupportedType
    else if type ≠ 0x0B#8 ∧ size ≠ 0 then .error .illegalCommand
    else fillOf type.toNat size.toNat imm.toNat
  else .error .illegalCommand

/-- R48 on a word, with `DEC_SUPPORTED` an argument. -/
def decodeWith (dec : Bool) (w : Command) : Except ErrorKind Instr :=
  decodeFields dec (opcField w) (typeField w) (sizeField w) (immField w)

/-- R48: decode is a total function on 64-bit words. -/
def decode (w : Command) : Except ErrorKind Instr := decodeWith Config.decSupported w

/-- R54: the word of a command, `{OPC, TYPE, SIZE, IMM}` with every unused field 0. -/
def encode : Instr → Command
  | .seed seed => mkCommand 0x01#8 0x00#8 0#16 (BitVec.ofInt 32 seed)
  | .draw => mkCommand 0x02#8 0x00#8 0#16 0#32
  | .sampleI8 => mkCommand 0x03#8 0x00#8 0#16 0#32
  | .sampleI16 => mkCommand 0x03#8 0x01#8 0#16 0#32
  | .sampleI32 => mkCommand 0x03#8 0x02#8 0#16 0#32
  | .sampleI64 => mkCommand 0x03#8 0x03#8 0#16 0#32
  | .sampleU8 => mkCommand 0x03#8 0x04#8 0#16 0#32
  | .sampleU16 => mkCommand 0x03#8 0x05#8 0#16 0#32
  | .sampleU32 => mkCommand 0x03#8 0x06#8 0#16 0#32
  | .sampleU64 => mkCommand 0x03#8 0x07#8 0#16 0#32
  | .sampleF32 => mkCommand 0x03#8 0x08#8 0#16 0#32
  | .sampleF64 => mkCommand 0x03#8 0x09#8 0#16 0#32
  | .sampleDec => mkCommand 0x03#8 0x0A#8 0#16 0#32
  | .sampleRaw size => mkCommand 0x03#8 0x0B#8 (BitVec.ofNat 16 size) 0#32
  | .fillI8 n => mkCommand 0x04#8 0x00#8 0#16 (BitVec.ofNat 32 n)
  | .fillI16 n => mkCommand 0x04#8 0x01#8 0#16 (BitVec.ofNat 32 n)
  | .fillI32 n => mkCommand 0x04#8 0x02#8 0#16 (BitVec.ofNat 32 n)
  | .fillI64 n => mkCommand 0x04#8 0x03#8 0#16 (BitVec.ofNat 32 n)
  | .fillU8 n => mkCommand 0x04#8 0x04#8 0#16 (BitVec.ofNat 32 n)
  | .fillU16 n => mkCommand 0x04#8 0x05#8 0#16 (BitVec.ofNat 32 n)
  | .fillU32 n => mkCommand 0x04#8 0x06#8 0#16 (BitVec.ofNat 32 n)
  | .fillU64 n => mkCommand 0x04#8 0x07#8 0#16 (BitVec.ofNat 32 n)
  | .fillF32 n => mkCommand 0x04#8 0x08#8 0#16 (BitVec.ofNat 32 n)
  | .fillF64 n => mkCommand 0x04#8 0x09#8 0#16 (BitVec.ofNat 32 n)
  | .fillDec n => mkCommand 0x04#8 0x0A#8 0#16 (BitVec.ofNat 32 n)
  | .fillRaw size n => mkCommand 0x04#8 0x0B#8 (BitVec.ofNat 16 size) (BitVec.ofNat 32 n)

/-- The columns `match` and `mask` of a row of the opcode map (R50): a word is the command when
`word AND mask = match`. -/
structure OpcodeRow where
  pattern : Command
  mask : Command
  deriving DecidableEq, Repr

/-- R50: the row of each command, transcribed from the table. -/
def opcodeRow : Instr → OpcodeRow
  | .seed _ => ⟨0x0100000000000000#64, 0xFFFFFFFF00000000#64⟩
  | .draw => ⟨0x0200000000000000#64, 0xFFFFFFFFFFFFFFFF#64⟩
  | .sampleI8 => ⟨0x0300000000000000#64, 0xFFFFFFFFFFFFFFFF#64⟩
  | .sampleI16 => ⟨0x0301000000000000#64, 0xFFFFFFFFFFFFFFFF#64⟩
  | .sampleI32 => ⟨0x0302000000000000#64, 0xFFFFFFFFFFFFFFFF#64⟩
  | .sampleI64 => ⟨0x0303000000000000#64, 0xFFFFFFFFFFFFFFFF#64⟩
  | .sampleU8 => ⟨0x0304000000000000#64, 0xFFFFFFFFFFFFFFFF#64⟩
  | .sampleU16 => ⟨0x0305000000000000#64, 0xFFFFFFFFFFFFFFFF#64⟩
  | .sampleU32 => ⟨0x0306000000000000#64, 0xFFFFFFFFFFFFFFFF#64⟩
  | .sampleU64 => ⟨0x0307000000000000#64, 0xFFFFFFFFFFFFFFFF#64⟩
  | .sampleF32 => ⟨0x0308000000000000#64, 0xFFFFFFFFFFFFFFFF#64⟩
  | .sampleF64 => ⟨0x0309000000000000#64, 0xFFFFFFFFFFFFFFFF#64⟩
  | .sampleDec => ⟨0x030A000000000000#64, 0xFFFFFFFFFFFFFFFF#64⟩
  | .sampleRaw _ => ⟨0x030B000000000000#64, 0xFFFF0000FFFFFFFF#64⟩
  | .fillI8 _ => ⟨0x0400000000000000#64, 0xFFFFFFFF00000000#64⟩
  | .fillI16 _ => ⟨0x0401000000000000#64, 0xFFFFFFFF00000000#64⟩
  | .fillI32 _ => ⟨0x0402000000000000#64, 0xFFFFFFFF00000000#64⟩
  | .fillI64 _ => ⟨0x0403000000000000#64, 0xFFFFFFFF00000000#64⟩
  | .fillU8 _ => ⟨0x0404000000000000#64, 0xFFFFFFFF00000000#64⟩
  | .fillU16 _ => ⟨0x0405000000000000#64, 0xFFFFFFFF00000000#64⟩
  | .fillU32 _ => ⟨0x0406000000000000#64, 0xFFFFFFFF00000000#64⟩
  | .fillU64 _ => ⟨0x0407000000000000#64, 0xFFFFFFFF00000000#64⟩
  | .fillF32 _ => ⟨0x0408000000000000#64, 0xFFFFFFFF00000000#64⟩
  | .fillF64 _ => ⟨0x0409000000000000#64, 0xFFFFFFFF00000000#64⟩
  | .fillDec _ => ⟨0x040A000000000000#64, 0xFFFFFFFF00000000#64⟩
  | .fillRaw _ _ => ⟨0x040B000000000000#64, 0xFFFF000000000000#64⟩

/-- The command word whose low `nbits` bits are those of `w` and whose other bits are 0 (R41: one word, one length). -/
def tableWord (nbits w : Nat) : Command := BitVec.ofNat 64 (w % 2 ^ nbits)

/-- What the decoder reads from a word numbered as spec/opcode_table.json numbers it: one 64-bit word, bit 0 its least
significant bit. More than 64 bits are no command of this block (R49; log entry 12). -/
def decodeTableWord (nbits w : Nat) : Option Instr :=
  if nbits ≤ 64 then (decode (tableWord nbits w)).toOption else none

end Sys2Proof
end

