-- ==== Sys2Proof/Machine/State.lean ====
section
/-!
DEFINITION. The state the spec gives the block (10_state.md R10 to R22), its two ports as plain data (30_encoding.md R51,
R53; 60_exceptions.md R131), and the state after reset (R22, 70_reset_and_hazards.md R140).
-/

namespace Sys2Proof.Machine

/-- The 4-bit status of a completion record (30_encoding.md R52); codes 4 to 15 are never produced. -/
inductive Status where
  /-- 0x0: the command completed. -/
  | ok
  /-- 0x1: the type cannot be laid out (R121). -/
  | unsupportedType
  /-- 0x2: the command needs a generator instance and `seeded = 0` (R122). -/
  | notSeeded
  /-- 0x3: the word is not a command (R123). -/
  | illegalCommand
  deriving DecidableEq, Repr

/-- A record of the output stream `OUT` (30_encoding.md R51). -/
inductive Record where
  /-- A value beat `VAL(W, v)`: one value as a pattern of `W` bits. A raw value of `size` bytes is the pattern of
  `8 * size` bits whose byte `k` is `b[k]` (R51; log entry 14, DEDUCED). -/
  | val (width : Nat) (bits : BitVec width)
  /-- A completion record `DONE(status)`. -/
  | done (status : Status)
  deriving DecidableEq, Repr

/-- What the host does to the block (60_exceptions.md R131): it presents a word or asserts reset. -/
inductive HostEvent where
  /-- A command word presented while the block is idle (R53), executed to completion. -/
  | command (w : Command)
  /-- Reset asserted while no command is executing (70_reset_and_hazards.md R140). -/
  | reset
  /-- A command word during whose execution reset is asserted, after `beats` of its value beats are out
  (R148; log entry 5, DESIGN CHOICE). -/
  | commandCut (w : Command) (beats : Nat)
  deriving DecidableEq, Repr

/-- The State Engine's registers: the document's generator instance (10_state.md R10 to R13). -/
structure Engine where
  /-- `x[0]` to `x[55]`, the document's `seedArray` (R10). -/
  x : Vector Word 56
  /-- `cursorA`, a 6-bit register that holds 0 to 55 and nothing else (R13; log entry 9, DEDUCED). -/
  cursorA : Fin 56
  /-- `cursorB`, likewise (R13). -/
  cursorB : Fin 56
  deriving DecidableEq, Repr

/-- Everything the spec gives the machine. `cmd`, `out` and `resets` are explained in log entries 1 to 3. -/
structure State where
  /-- The array and the cursors (R10, R13). -/
  engine : Engine
  /-- The `seeded` flag (R15), the only flag of the block. -/
  seeded : Bool
  /-- What the host does next on the command port and the reset input, oldest first (R53, R131). -/
  cmd : List HostEvent
  /-- The output stream: every record emitted so far, oldest first (R51). -/
  out : List Record
  /-- The model's own counter: which free contents the next reset leaves (R140, R148). -/
  resets : Nat
  deriving DecidableEq, Repr

/-- Why the machine stops with a fault: for no reason. Every command ends with a completion record and the block is then
ready for the next (60_exceptions.md R125, R126; 30_encoding.md R56), so the type has no constructor (log entry 13, safe). -/
inductive Fault where
  deriving DecidableEq, Repr

/-- Why an instruction has no meaning in the model. -/
inductive Refusal where
  /-- Raised by `exec`'s arm of an instruction that has no meaning yet; safe. No arm raises it now. -/
  | notModelled (mnemonic : String)
  deriving DecidableEq, Repr

/-- What reset number `n` leaves in the array and the cursors: unspecified by R22 and R140, so free values of `Config`
(log entry 1, DESIGN CHOICE). -/
@[irreducible] def resetEngine (n : Nat) : Engine where
  x := Vector.ofFn (Config.resetSlot n)
  cursorA := Config.resetCursorA n
  cursorB := Config.resetCursorB n

/-- The machine right after reset (R22): `seeded = 0`, the array and the cursors unspecified, nothing presented yet and
nothing emitted. -/
def State.reset : State where
  engine := resetEngine 0
  seeded := false
  cmd := []
  out := []
  resets := 1

end Sys2Proof.Machine
end

