-- ==== Sys2Proof/Machine/Ops.lean ====
section
/-!
DEFINITION. The named operations of 00_scope.md R8 over slots, cursors and records: 32-bit arithmetic, slot access,
the cursor step, `draw()` (40_state_engine.md R68), `emit`, `done`, `raise`, and reset (70_reset_and_hazards.md R140).
-/

namespace Sys2Proof.Machine

/-- `MAX_INT = 2^31 - 1` (R4). -/
def maxInt : Int := 2147483647

/-- `MIN_INT = -2^31` (R4). -/
def minInt : Int := -2147483648

/-- `MSEED` (R4). -/
def mseed : Int := 161803398

/-- `wrap32(z)`: the signed 32-bit value congruent to `z` modulo 2^32 (R8). -/
def wrap32 (z : Int) : Word := BitVec.ofInt 32 z

/-- `sub32(a, b) = wrap32(a - b)` on signed values (R8; `OVF = wrap`, R5). -/
def sub32 (a b : Word) : Word := wrap32 (a.toInt - b.toInt)

/-- `add32(a, b) = wrap32(a + b)` on signed values (R8; `OVF = wrap`, R5). -/
def add32 (a b : Word) : Word := wrap32 (a.toInt + b.toInt)

/-- "if it is negative, add MAX_INT": the adjustment of R63, R64 and of step 5 of R68, on the wrapped value. -/
def addMaxIfNeg (t : Word) : Word := if t.toInt < 0 then add32 t (wrap32 maxInt) else t

/-- Step 4 of R68: the exact value MAX_INT is decremented. -/
def decIfMax (t : Word) : Word := if t.toInt = maxInt then sub32 t (wrap32 1) else t

/-- `x[i]`: read of slot `i` (R8, R30). -/
def readSlot (x : Vector Word 56) (i : Fin 56) : Word := x[i.val]

/-- `x[i] <- v`: write of slot `i` (R8, R30). -/
def writeSlot (x : Vector Word 56) (i : Fin 56) (v : Word) : Vector Word 56 := x.set i.val v i.isLt

/-- Steps 1 and 2 of R68: one more, and 56 is replaced by 1, so that slot 0 is never reached. -/
def stepCursor (c : Fin 56) : Fin 56 :=
  if h : c.val + 1 = 56 then 1 else ⟨c.val + 1, by omega⟩

/-- The value of steps 3 to 5 of R68 from the two slots read. -/
def drawResult (a b : Word) : Word := addMaxIfNeg (decIfMax (sub32 a b))

/-- `draw()` (R68): step both cursors, subtract the two slots they now index, adjust, store back at `cursorA`. -/
def draw (e : Engine) : Word × Engine :=
  let a := stepCursor e.cursorA
  let b := stepCursor e.cursorB
  let result := drawResult (readSlot e.x a) (readSlot e.x b)
  (result, { x := writeSlot e.x a result, cursorA := a, cursorB := b })

/-- `k` draws in a row (20_memory.md R37 (b)), the first one first. -/
def drawMany : Nat → Engine → List Word × Engine
  | 0, e => ([], e)
  | k + 1, e =>
    let first := draw e
    let rest := drawMany k first.2
    (first.1 :: rest.1, rest.2)

/-- Append records to the output stream (30_encoding.md R51). -/
def emit (records : List Record) (s : State) : State := { s with out := s.out ++ records }

/-- `done(status)`: append the completion record (R8, R51). -/
def done (status : Status) (s : State) : State := emit [.done status] s

/-- The status an error reports (60_exceptions.md R120). -/
def errorStatus : ErrorKind → Status
  | .unsupportedType => .unsupportedType
  | .notSeeded => .notSeeded
  | .illegalCommand => .illegalCommand

/-- The 4-bit code of a status (30_encoding.md R52). -/
def statusCode : Status → BitVec 4
  | .ok => 0x0#4
  | .unsupportedType => 0x1#4
  | .notSeeded => 0x2#4
  | .illegalCommand => 0x3#4

/-- `raise <Kind>`, the one way an error is taken (60_exceptions.md R125): one completion record, no other change. There
is nothing to return from (R126). -/
def raise (k : ErrorKind) (s : State) : State := done (errorStatus k) s

/-- Reset (70_reset_and_hazards.md R140): no generator instance; the array and the cursors unspecified, so free values
(log entry 1). The ports are not the block's registers: the records already out stand (R148). -/
def resetBlock (s : State) : State :=
  { s with engine := resetEngine s.resets, seeded := false, resets := s.resets + 1 }

end Sys2Proof.Machine
end

