-- ==== Sys2Proof/Machine/Flags.lean ====
section
/-!
DEFINITION. The block's only flag, `seeded` (10_state.md R15): who sets it and who checks it. There are no condition
codes, carry, overflow, zero or sign flags. Reset clears it (`resetBlock`).
-/

namespace Sys2Proof.Machine

/-- The last step of SEED: `seeded <- 1` (R15, R60). -/
def setSeeded (s : State) : State := { s with seeded := true }

/-- "if seeded = 0 then raise NotSeeded": the first line of DRAW, SAMPLE and FILL (60_exceptions.md R122). -/
def ifSeeded (s : State) (body : State) : State := if s.seeded then body else raise .notSeeded s

end Sys2Proof.Machine
end

