-- ==== Sys2Proof/Machine/Float.lean ====
section
/-!
DEFINITION. The floating-point conversion of a draw (41_type_adapter_sample.md R89, R90, R93) in exact integer
arithmetic. A number is a sign, a magnitude and a power of two; rounding keeps a given number of magnitude bits; the
IEEE 754 encodings are those of 00_scope.md R8 (PRESUMED by the spec itself, log entry 8). The exponents that occur lie
inside the normal range of both formats (R89, R90; log entry 7, DEDUCED).
-/

namespace Sys2Proof.Machine

/-- The number `(-1)^neg * mag * 2^exp`. -/
structure Dyadic where
  neg : Bool
  mag : Nat
  exp : Int
  deriving DecidableEq, Repr

/-- The number of bits of a magnitude. -/
def bitLength (m : Nat) : Nat := if m = 0 then 0 else m.log2 + 1

/-- Whether rounding goes up in magnitude: `q` is the truncated magnitude, `r` what was cut off of a unit of `2^sh`. -/
def roundsUp (mode : Rounding) (q r sh : Nat) : Bool :=
  match mode with
  | .rtz => false
  | .rne => decide (2 ^ sh < 2 * r) || (decide (2 * r = 2 ^ sh) && decide (q % 2 = 1))

/-- Round to a magnitude of at most `p` bits (`rne64` and `narrow32` of 00_scope.md R8, the exponent unbounded). -/
def roundTo (p : Nat) (mode : Rounding) (y : Dyadic) : Dyadic :=
  let sh := bitLength y.mag - p
  let q := y.mag / 2 ^ sh
  let r := y.mag % 2 ^ sh
  let q' := if roundsUp mode q r sh then q + 1 else q
  if q' = 2 ^ p then { y with mag := 2 ^ (p - 1), exp := y.exp + sh + 1 }
  else { y with mag := q', exp := y.exp + sh }

/-- The exact product. -/
def Dyadic.mul (a b : Dyadic) : Dyadic := ⟨a.neg != b.neg, a.mag * b.mag, a.exp + b.exp⟩

/-- A draw as a number: the signed 32-bit value, exact (R90). -/
def ofDraw (d : Word) : Dyadic := ⟨decide (d.toInt < 0), d.toInt.natAbs, 0⟩

/-- `INV = rne64(1 / 2147483647) = 2^-31 + 2^-62` (R93), its magnitude in 53 bits. -/
def inv : Dyadic := ⟨false, 2 ^ 52 + 2 ^ 21, -83⟩

/-- `rne64(d * INV)`: the exact product rounded once to 53 bits (R90; `F64_ROUND` of R5). -/
def scaleDraw (d : Word) : Dyadic := roundTo 53 Config.f64Round ((ofDraw d).mul inv)

/-- `narrow32(y, mode)`: to the 24 bits of binary32 (00_scope.md R8, R89). -/
def narrow32 (mode : Rounding) (y : Dyadic) : Dyadic := roundTo 24 mode y

/-- The IEEE 754 pattern of a number with at most `p` magnitude bits in the format with `p - 1` fraction bits,
`expBits` exponent bits and the given bias: sign, biased exponent, fraction; zero keeps only its sign. -/
def ieeePattern (p expBits bias : Nat) (y : Dyadic) : Nat :=
  let sign := if y.neg then 2 ^ (p - 1 + expBits) else 0
  let len := bitLength y.mag
  if y.mag = 0 then sign
  else sign + (y.exp + len - 1 + bias).toNat * 2 ^ (p - 1) + (y.mag * 2 ^ (p - len) - 2 ^ (p - 1))

/-- `bits64(y)`: the binary64 pattern (00_scope.md R8). -/
def bits64 (y : Dyadic) : BitVec 64 := BitVec.ofNat 64 (ieeePattern 53 11 1023 y)

/-- `bits32(y)`: the binary32 pattern (00_scope.md R8). -/
def bits32 (y : Dyadic) : BitVec 32 := BitVec.ofNat 32 (ieeePattern 24 8 127 y)

end Sys2Proof.Machine
end

