-- ==== Sys2Proof/Machine/Operands.lean ====
section
/-!
DEFINITION. How a meaning uses its operands (30_encoding.md R44): the seed (40_state_engine.md R61) and the raw size
(41_type_adapter_sample.md R92, R94).
-/

namespace Sys2Proof.Machine

/-- R61: `subtrahend = seed == MIN_INT ? MAX_INT : abs(seed)`. -/
def subtrahend (seed : Int) : Word := if seed = minInt then wrap32 maxInt else wrap32 |seed|

/-- R92, R94: a raw value of `size` bytes takes `ceil(size / 4)` draws. -/
def rawDraws (size : Nat) : Nat := (size + 3) / 4

end Sys2Proof.Machine
end

