-- ==== Sys2Proof/Machine/Adapter.lean ====
section
/-!
DEFINITION. The Type Adapter's value functions `value_T()` (41_type_adapter_sample.md R81 to R92) and the shapes every
SAMPLE (R80) and every FILL (42_type_adapter_fill.md R100) share. A value function takes the engine, makes its draws and
answers the value beat and the engine after them.
-/

namespace Sys2Proof.Machine

/-- `value_T()` together with the beat that `emit(v, W(T))` sends (R80). -/
abbrev ValueFn := Engine → Record × Engine

/-- The low `width` bits of one draw, "reinterpret these low N bits" (R81 to R87). -/
def lowBits (width : Nat) : ValueFn := fun e =>
  let d := draw e
  (.val width (d.1.setWidth width), d.2)

/-- Two draws, the first in the low half: `{high, low}` (R84, R88). -/
def twoDraws : ValueFn := fun e =>
  let low := draw e
  let high := draw low.2
  (.val 64 (high.1 ++ low.1), high.2)

/-- int8 (R81). -/
def valueI8 : ValueFn := lowBits 8

/-- int16 (R82). -/
def valueI16 : ValueFn := lowBits 16

/-- int32 (R83). -/
def valueI32 : ValueFn := lowBits 32

/-- int64 (R84). -/
def valueI64 : ValueFn := twoDraws

/-- uint8 (R85). -/
def valueU8 : ValueFn := lowBits 8

/-- uint16 (R86). -/
def valueU16 : ValueFn := lowBits 16

/-- uint32 (R87). -/
def valueU32 : ValueFn := lowBits 32

/-- uint64 (R88). -/
def valueU64 : ValueFn := twoDraws

/-- binary64 (R90). -/
def valueF64 : ValueFn := fun e =>
  let d := draw e
  (.val 64 (bits64 (scaleDraw d.1)), d.2)

/-- binary32 under a narrowing mode (R89, which lets the model take `F32_NARROW` as an argument). -/
def valueF32With (mode : Rounding) : ValueFn := fun e =>
  let d := draw e
  (.val 32 (bits32 (narrow32 mode (scaleDraw d.1))), d.2)

/-- binary32 (R89) under `F32_NARROW` of R5. -/
def valueF32 : ValueFn := valueF32With Config.f32Narrow

/-- decimal where it is supported (R91): `dec_scale` of one draw. -/
def valueDec : ValueFn := fun e =>
  let d := draw e
  (.val Config.decWidth (Config.decScale d.1), d.2)

/-- Byte `k` of a value is `v[8k+7 : 8k]` (20_memory.md R33 (a)). -/
def byteOf {width : Nat} (v : BitVec width) (k : Nat) : Byte := v.extractLsb' (8 * k) 8

/-- The four bytes of a draw, least significant first (R92, R33 (b)). -/
def drawBytes (d : Word) : List Byte := [byteOf d 0, byteOf d 1, byteOf d 2, byteOf d 3]

/-- The number whose bytes, least significant first, are the list's. -/
def littleEndian : List Byte → Nat
  | [] => 0
  | b :: bs => b.toNat + 256 * littleEndian bs

/-- The first `size` bytes of the draws laid end to end (R92): what is left of the last draw is discarded. -/
def packBytes (size : Nat) (draws : List Word) : List Byte := (draws.flatMap drawBytes).take size

/-- A raw value of `size` bytes (R92). -/
def valueRaw (size : Nat) : ValueFn := fun e =>
  let ds := drawMany (rawDraws size) e
  (.val (8 * size) (BitVec.ofNat (8 * size) (littleEndian (packBytes size ds.1))), ds.2)

/-- The shape of every SAMPLE (R80): NotSeeded, or one value, its beat and `DONE(OK)`. -/
def sampleWith (value : ValueFn) (s : State) : State :=
  let v := value s.engine
  ifSeeded s (done .ok (emit [v.1] { s with engine := v.2 }))

/-- The loop of a FILL (R100): `n` values in order, all draws of one before any draw of the next. -/
def fillValues (value : ValueFn) : Nat → Engine → List Record × Engine
  | 0, e => ([], e)
  | n + 1, e =>
    let first := value e
    let rest := fillValues value n first.2
    (first.1 :: rest.1, rest.2)

/-- The shape of every FILL (R100): NotSeeded, or `n` value beats in order and one `DONE(OK)`. -/
def fillWith (value : ValueFn) (n : Nat) (s : State) : State :=
  let vs := fillValues value n s.engine
  ifSeeded s (done .ok (emit vs.1 { s with engine := vs.2 }))

/-- A decimal command (R91, R111): UnsupportedType while `DEC_SUPPORTED = 0`, before `seeded` is looked at (R124). -/
def ifDecimal (dec : Bool) (s : State) (body : State) : State :=
  if dec then body else raise .unsupportedType s

end Sys2Proof.Machine
end

