-- ==== Sys2Proof/Machine/Fill.lean ====
section
/-!
DEFINITION. The twelve buffer commands (42_type_adapter_fill.md R101 to R112), each `fillWith` of the value function of
its type.
-/

namespace Sys2Proof.Machine

/-- FILL.I8 n (R101): `n` int8 values. -/
def execFillI8 (n : Nat) (s : State) : Host.Outcome State Fault Refusal := .next (fillWith valueI8 n s)

/-- FILL.I16 n (R102): `n` int16 values. -/
def execFillI16 (n : Nat) (s : State) : Host.Outcome State Fault Refusal := .next (fillWith valueI16 n s)

/-- FILL.I32 n (R103): `n` int32 values. -/
def execFillI32 (n : Nat) (s : State) : Host.Outcome State Fault Refusal := .next (fillWith valueI32 n s)

/-- FILL.I64 n (R104): `n` int64 values. -/
def execFillI64 (n : Nat) (s : State) : Host.Outcome State Fault Refusal := .next (fillWith valueI64 n s)

/-- FILL.U8 n (R105): `n` uint8 values. -/
def execFillU8 (n : Nat) (s : State) : Host.Outcome State Fault Refusal := .next (fillWith valueU8 n s)

/-- FILL.U16 n (R106): `n` uint16 values. -/
def execFillU16 (n : Nat) (s : State) : Host.Outcome State Fault Refusal := .next (fillWith valueU16 n s)

/-- FILL.U32 n (R107): `n` uint32 values. -/
def execFillU32 (n : Nat) (s : State) : Host.Outcome State Fault Refusal := .next (fillWith valueU32 n s)

/-- FILL.U64 n (R108): `n` uint64 values. -/
def execFillU64 (n : Nat) (s : State) : Host.Outcome State Fault Refusal := .next (fillWith valueU64 n s)

/-- FILL.F32 n (R109): `n` binary32 values. -/
def execFillF32 (n : Nat) (s : State) : Host.Outcome State Fault Refusal := .next (fillWith valueF32 n s)

/-- FILL.F64 n (R110): `n` binary64 values. -/
def execFillF64 (n : Nat) (s : State) : Host.Outcome State Fault Refusal := .next (fillWith valueF64 n s)

/-- FILL.DEC n (R111) with `DEC_SUPPORTED` an argument. -/
def fillDecWith (dec : Bool) (n : Nat) (s : State) : State := ifDecimal dec s (fillWith valueDec n s)

/-- FILL.DEC n (R111) under `DEC_SUPPORTED` of R5: UnsupportedType for every `n`, no draw. -/
def execFillDec (n : Nat) (s : State) : Host.Outcome State Fault Refusal := .next (fillDecWith Config.decSupported n s)

/-- FILL.RAW size, n (R112): `n` raw values of `size` bytes. -/
def execFillRaw (size n : Nat) (s : State) : Host.Outcome State Fault Refusal := .next (fillWith (valueRaw size) n s)

end Sys2Proof.Machine
end

