-- ==== Sys2Proof/Machine/Sample.lean ====
section
/-!
DEFINITION. The twelve single-value commands (41_type_adapter_sample.md R81 to R92), each `sampleWith` of its own value
function.
-/

namespace Sys2Proof.Machine

/-- SAMPLE.I8 (R81): one int8 value. -/
def execSampleI8 (s : State) : Host.Outcome State Fault Refusal := .next (sampleWith valueI8 s)

/-- SAMPLE.I16 (R82): one int16 value. -/
def execSampleI16 (s : State) : Host.Outcome State Fault Refusal := .next (sampleWith valueI16 s)

/-- SAMPLE.I32 (R83): one int32 value. -/
def execSampleI32 (s : State) : Host.Outcome State Fault Refusal := .next (sampleWith valueI32 s)

/-- SAMPLE.I64 (R84): one int64 value. -/
def execSampleI64 (s : State) : Host.Outcome State Fault Refusal := .next (sampleWith valueI64 s)

/-- SAMPLE.U8 (R85): one uint8 value. -/
def execSampleU8 (s : State) : Host.Outcome State Fault Refusal := .next (sampleWith valueU8 s)

/-- SAMPLE.U16 (R86): one uint16 value. -/
def execSampleU16 (s : State) : Host.Outcome State Fault Refusal := .next (sampleWith valueU16 s)

/-- SAMPLE.U32 (R87): one uint32 value. -/
def execSampleU32 (s : State) : Host.Outcome State Fault Refusal := .next (sampleWith valueU32 s)

/-- SAMPLE.U64 (R88): one uint64 value. -/
def execSampleU64 (s : State) : Host.Outcome State Fault Refusal := .next (sampleWith valueU64 s)

/-- SAMPLE.F32 (R89): one binary32 value. -/
def execSampleF32 (s : State) : Host.Outcome State Fault Refusal := .next (sampleWith valueF32 s)

/-- SAMPLE.F64 (R90): one binary64 value. -/
def execSampleF64 (s : State) : Host.Outcome State Fault Refusal := .next (sampleWith valueF64 s)

/-- SAMPLE.DEC (R91) with `DEC_SUPPORTED` an argument. -/
def sampleDecWith (dec : Bool) (s : State) : State := ifDecimal dec s (sampleWith valueDec s)

/-- SAMPLE.DEC (R91) under `DEC_SUPPORTED` of R5: UnsupportedType, no draw. -/
def execSampleDec (s : State) : Host.Outcome State Fault Refusal := .next (sampleDecWith Config.decSupported s)

/-- SAMPLE.RAW size (R92): one raw value of `size` bytes. -/
def execSampleRaw (size : Nat) (s : State) : Host.Outcome State Fault Refusal := .next (sampleWith (valueRaw size) s)

end Sys2Proof.Machine
end

