-- ==== Sys2Proof/Machine/StateEngine.lean ====
section
/-!
DEFINITION. The State Engine commands SEED and DRAW (40_state_engine.md R60 to R69).
-/

namespace Sys2Proof.Machine

/-- R63: "advance `ii` by 21, wrapping to `ii - 55` if `ii >= 55`"; 21 is `LAG` of R4. -/
def nextWalkIndex (ii : Fin 55) : Fin 55 :=
  ⟨if 55 ≤ ii.val + 21 then ii.val + 21 - 55 else ii.val + 21, by split <;> omega⟩

/-- SEED step 3 (R63): `steps` iterations of the strided walk from the given `ii`, `mj`, `mk`. -/
def walkFill : (steps : Nat) → (ii : Fin 55) → (mj mk : Word) → Vector Word 56 → Vector Word 56
  | 0, _, _, _, x => x
  | steps + 1, ii, mj, mk, x =>
    let ii := nextWalkIndex ii
    walkFill steps ii mk (addMaxIfNeg (sub32 mj mk)) (writeSlot x ii.castSucc mk)

/-- SEED step 4 (R64): the partner slot `1 + n` of slot `i`, with `n = (i + 30) mod 55`; 30 is `MIXOFF` of R4. -/
def mixPartner (i : Fin 56) : Fin 56 := ⟨1 + (i.val + 30) % 55, by omega⟩

/-- SEED step 4 (R64): one mixing step at slot `i`, in place. -/
def mixStep (x : Vector Word 56) (i : Fin 56) : Vector Word 56 :=
  writeSlot x i (addMaxIfNeg (sub32 (readSlot x i) (readSlot x (mixPartner i))))

/-- SEED step 4 (R64): the first `m` steps of a pass, at slots 1 to `m` ascending. -/
def mixSteps : (m : Nat) → Vector Word 56 → Vector Word 56
  | 0, x => x
  | m + 1, x => mixStep (mixSteps m x) (Fin.ofNat 56 (m + 1))

/-- SEED step 4 (R64): one full pass over the used slots 1 to 55. -/
def mixPass (x : Vector Word 56) : Vector Word 56 := mixSteps 55 x

/-- SEED step 4 (R64): `passes` passes one after another. -/
def mixPasses : (passes : Nat) → Vector Word 56 → Vector Word 56
  | 0, x => x
  | passes + 1, x => mixPasses passes (mixPass x)

/-- SEED step 2 (R62): `mj = MSEED - subtrahend`. -/
def seedStart (seed : Int) : Word := sub32 (wrap32 mseed) (subtrahend seed)

/-- SEED steps 2 and 3 (R62, R63): `x[55] <- mj`, then the 54-step walk from `ii = 0`, `mk = 1`. -/
def seedFill (seed : Int) (x : Vector Word 56) : Vector Word 56 :=
  walkFill 54 0 (seedStart seed) (wrap32 1) (writeSlot x 55 (seedStart seed))

/-- SEED steps 1 to 5 (R61 to R65): the array filled and mixed in 4 passes (`NPASS` of R4), the cursors at 0 and 21. -/
@[irreducible] def seedEngine (seed : Int) (e : Engine) : Engine where
  x := mixPasses 4 (seedFill seed e.x)
  cursorA := 0
  cursorB := 21

/-- SEED (R60): construct the generator from one signed 32-bit seed; accepted at any time (R67). -/
def execSeed (seed : Int) (s : State) : Host.Outcome State Fault Refusal :=
  .next (done .ok (setSeeded { s with engine := seedEngine seed s.engine }))

/-- DRAW (R69): one raw draw as a 32-bit value beat. -/
def execDraw (s : State) : Host.Outcome State Fault Refusal :=
  let d := draw s.engine
  .next (ifSeeded s (done .ok (emit [.val 32 d.1] { s with engine := d.2 })))

end Sys2Proof.Machine
end

