-- ==== Sys2Proof/Machine/Dispatch.lean ====
section
/-!
DEFINITION. One arm per command of 30_encoding.md R50, each one call of its meaning.
-/

namespace Sys2Proof.Machine

def exec (i : Instr) (s : State) : Host.Outcome State Fault Refusal :=
  match i with
  | .seed seed => Sys2Proof.Machine.execSeed seed s
  | .draw => Sys2Proof.Machine.execDraw s
  | .sampleI8 => Sys2Proof.Machine.execSampleI8 s
  | .sampleI16 => Sys2Proof.Machine.execSampleI16 s
  | .sampleI32 => Sys2Proof.Machine.execSampleI32 s
  | .sampleI64 => Sys2Proof.Machine.execSampleI64 s
  | .sampleU8 => Sys2Proof.Machine.execSampleU8 s
  | .sampleU16 => Sys2Proof.Machine.execSampleU16 s
  | .sampleU32 => Sys2Proof.Machine.execSampleU32 s
  | .sampleU64 => Sys2Proof.Machine.execSampleU64 s
  | .sampleF32 => Sys2Proof.Machine.execSampleF32 s
  | .sampleF64 => Sys2Proof.Machine.execSampleF64 s
  | .sampleDec => Sys2Proof.Machine.execSampleDec s
  | .sampleRaw size => Sys2Proof.Machine.execSampleRaw size s
  | .fillI8 n => Sys2Proof.Machine.execFillI8 n s
  | .fillI16 n => Sys2Proof.Machine.execFillI16 n s
  | .fillI32 n => Sys2Proof.Machine.execFillI32 n s
  | .fillI64 n => Sys2Proof.Machine.execFillI64 n s
  | .fillU8 n => Sys2Proof.Machine.execFillU8 n s
  | .fillU16 n => Sys2Proof.Machine.execFillU16 n s
  | .fillU32 n => Sys2Proof.Machine.execFillU32 n s
  | .fillU64 n => Sys2Proof.Machine.execFillU64 n s
  | .fillF32 n => Sys2Proof.Machine.execFillF32 n s
  | .fillF64 n => Sys2Proof.Machine.execFillF64 n s
  | .fillDec n => Sys2Proof.Machine.execFillDec n s
  | .fillRaw size n => Sys2Proof.Machine.execFillRaw size n s

end Sys2Proof.Machine
end

