-- ==== Sys2Proof/Machine/Port.lean ====
section
/-!
DEFINITION. The command port and the reset input (30_encoding.md R53; 60_exceptions.md R131): what one thing the host
does makes the block do.
-/

namespace Sys2Proof.Machine

/-- One command word executed to completion (R36): decode, then its meaning or the decode error (R48, R125). -/
def runCommand (w : Command) (s : State) : Host.Outcome State Fault Refusal :=
  match decode w with
  | .ok i => exec i s
  | .error k => .next (raise k s)

/-- The value beats a command emitted, given the stream before and after it: all of its records but the last, which is
its completion record (R51). -/
def valueBeats (before after : List Record) : List Record := (after.drop before.length).dropLast

/-- Reset during a command (70_reset_and_hazards.md R148), `beats` of its value beats being out: they stand, no other
record of it follows, and the block is reset. -/
def cutCommand (w : Command) (beats : Nat) (s : State) : Host.Outcome State Fault Refusal :=
  match runCommand w s with
  | .next t => .next (resetBlock (emit ((valueBeats s.out t.out).take beats) s))
  | .fault f => .fault f
  | .refused r => .refused r

/-- What one thing the host does makes the block do (R131). -/
def serve (event : HostEvent) (s : State) : Host.Outcome State Fault Refusal :=
  match event with
  | .command w => runCommand w s
  | .reset => .next (resetBlock s)
  | .commandCut w beats => cutCommand w beats s

/-- The host presents a word on the command port: it is the next thing the block takes (R53). -/
def present (w : Command) (s : State) : State := { s with cmd := .command w :: s.cmd }

end Sys2Proof.Machine
end

