-- ==== Sys2Proof/Machine/Step.lean ====
section
/-!
DEFINITION. One step: the block takes the oldest thing the host did and executes it whole (20_memory.md R36, R37). With
nothing presented it waits and keeps its state (60_exceptions.md R130, 70_reset_and_hazards.md R151; log entry 4).
-/

namespace Sys2Proof.Machine

/-- One step of the machine. -/
def step (s : State) : Host.Outcome State Fault Refusal :=
  match s.cmd with
  | [] => .next s
  | event :: rest => serve event { s with cmd := rest }

/-- The word numbered as spec/opcode_table.json numbers it, presented on the command port, so that the very next step
executes it (R53; log entries 2 and 12). -/
def State.withFetchWord (s : State) (nbits w : Nat) : State := present (tableWord nbits w) s

end Sys2Proof.Machine
end

