-- ==== Sys2Proof/Safety.lean ====
section
/-!
DEFINITION. The invariants the document claims of the generator instance (10_state.md R13, R19, R20), in the terms the
statements use.
-/

namespace Sys2Proof.Machine

/-- A value in `[0, MAX_INT - 1]` (R20, R70). -/
abbrev InRange (v : Word) : Prop := 0 ≤ v.toInt ∧ v.toInt < maxInt

/-- A value in `[-1, MAX_INT]` (40_state_engine.md R64). -/
abbrev NearRange (v : Word) : Prop := -1 ≤ v.toInt ∧ v.toInt ≤ maxInt

/-- The slot range invariant: `x[1]` to `x[55]` in `[0, MAX_INT - 1]` (R20). -/
def SlotsInRange (x : Vector Word 56) : Prop := ∀ i : Fin 56, i ≠ 0 → InRange (readSlot x i)

/-- The weaker form that 40_state_engine.md R64 gives inside SEED: `x[1]` to `x[55]` in `[-1, MAX_INT]`. -/
def SlotsNearRange (x : Vector Word 56) : Prop := ∀ i : Fin 56, i ≠ 0 → NearRange (readSlot x i)

/-- The cursor lag invariant: `(cursorB - cursorA) mod 55 = 21` (R19). -/
def CursorLag (e : Engine) : Prop := ((e.cursorB.val : Int) - (e.cursorA.val : Int)) % 55 = 21

/-- The lag invariant of the block: it holds whenever `seeded = 1` (R19). -/
def LagInv (s : State) : Prop := s.seeded = true → CursorLag s.engine

/-- The slot range invariant of the block: it holds whenever `seeded = 1` (R20, R75). -/
def RangeInv (s : State) : Prop := s.seeded = true → SlotsInRange s.engine.x

/-- Two engines that agree on everything a rule reads: `x[1]` to `x[55]` and the cursors, but not slot 0 (R11, R21). -/
def SameGenerator (e f : Engine) : Prop :=
  (∀ i : Fin 56, i ≠ 0 → readSlot e.x i = readSlot f.x i) ∧ e.cursorA = f.cursorA ∧ e.cursorB = f.cursorB

/-- Two states that no sequence of commands can tell apart: the same flag, the same ports, and the same generator where
there is one (R21, R22, R141). -/
def Indistinguishable (s t : State) : Prop :=
  s.seeded = t.seeded ∧ s.cmd = t.cmd ∧ s.out = t.out ∧ (s.seeded = true → SameGenerator s.engine t.engine)

end Sys2Proof.Machine
end

