-- ==== Sys2Proof/Certificates/Slice0/Obligations.lean ====
section
/-!
DEFINITION. The statements for the provers, each from the rules of spec/ its docstring names. The helpers of
`Sys2Proof.Claim` restate what the rules say in plain integers, apart from the model's own definitions.
-/

namespace Sys2Proof.Claim

open Sys2Proof.Machine

/-- The state after a command that completes: the engine changed, the beats and `DONE(OK)` appended, nothing else. -/
def answered (s : State) (e : Engine) (beats : List Record) : State :=
  { s with engine := e, out := s.out ++ beats ++ [.done .ok] }

/-- The state after a command that raises an error: one completion record and nothing else (R125). -/
def failed (s : State) (st : Status) : State := { s with out := s.out ++ [.done st] }

/-- The engine after `k` draws. -/
def after (k : Nat) (e : Engine) : Engine := (drawMany k e).2

/-- The draw made after `k` draws, as the procedure `draw()` returns it. -/
def drawn (k : Nat) (e : Engine) : Word := (draw (after k e)).1

/-- `x[i]` as a signed number; indices outside the array do not occur in the statements. -/
def slotInt (x : Vector Word 56) (i : Nat) : Int := if h : i < 56 then (readSlot x ⟨i, h⟩).toInt else 0

/-- R63, R64: the wrapped difference, with MAX_INT added if it is negative. -/
def adjust (d : Int) : Int :=
  if d.bmod (2 ^ 32) < 0 then d.bmod (2 ^ 32) + 2147483647 else d.bmod (2 ^ 32)

/-- The same without any wrap: the exact difference, with MAX_INT added if it is negative. -/
def adjustExact (d : Int) : Int := if d < 0 then d + 2147483647 else d

/-- R68, steps 3 to 5: the wrapped difference; MAX_INT becomes MAX_INT - 1; a negative value gets MAX_INT added. -/
def adjustDraw (d : Int) : Int :=
  if d.bmod (2 ^ 32) = 2147483647 then 2147483646
  else if d.bmod (2 ^ 32) < 0 then d.bmod (2 ^ 32) + 2147483647 else d.bmod (2 ^ 32)

/-- R61: the subtrahend of a seed. -/
def subtrahendInt (z : Int) : Int := if z = -2147483648 then 2147483647 else |z|

/-- R62: `mj` after step 2. -/
def startInt (z : Int) : Int := 161803398 - subtrahendInt z

/-- R63: the value stored at iteration `k` of the walk (`k = 0` is `mj`), under an adjustment. -/
def walkValue (adj : Int → Int) (mj : Int) : Nat → Int
  | 0 => mj
  | 1 => 1
  | k + 2 => adj (walkValue adj mj k - walkValue adj mj (k + 1))

/-- R62, R63: the array after steps 2 and 3. -/
def Walked (adj : Int → Int) (mj : Int) (y : Vector Word 56) : Prop :=
  slotInt y 55 = mj ∧ ∀ k, 1 ≤ k → k ≤ 54 → slotInt y (21 * k % 55) = walkValue adj mj k

/-- R64: one mixing pass takes `y` to `z`: in place, ascending; up to slot 24 the partner is not yet updated, from 25 on
it is. -/
def Mixed (adj : Int → Int) (y z : Vector Word 56) : Prop :=
  ∀ i, 1 ≤ i → i ≤ 55 →
    slotInt z i = adj (slotInt y i - (if i ≤ 24 then slotInt y (i + 31) else slotInt z (i - 24)))

/-- A record that is a value beat. -/
def IsBeat (r : Record) : Prop := ∃ (w : Nat) (v : BitVec w), r = .val w v

/-- The width of a value beat. -/
def beatWidth : Record → Option Nat
  | .val w _ => some w
  | .done _ => none

/-- Whether a command is SEED. -/
def isSeed : Instr → Bool
  | .seed _ => true
  | _ => false

/-- Whether a command is one of the two decimal commands. -/
def isDecimal : Instr → Bool
  | .sampleDec => true
  | .fillDec _ => true
  | _ => false

/-- R51, R43: the widths of the value beats of a command that completes; a decimal command never does (R91). -/
def beatWidths : Instr → List Nat
  | .seed _ => []
  | .draw => [32]
  | .sampleI8 => [8]
  | .sampleI16 => [16]
  | .sampleI32 => [32]
  | .sampleI64 => [64]
  | .sampleU8 => [8]
  | .sampleU16 => [16]
  | .sampleU32 => [32]
  | .sampleU64 => [64]
  | .sampleF32 => [32]
  | .sampleF64 => [64]
  | .sampleDec => []
  | .sampleRaw size => [8 * size]
  | .fillI8 n => List.replicate n 8
  | .fillI16 n => List.replicate n 16
  | .fillI32 n => List.replicate n 32
  | .fillI64 n => List.replicate n 64
  | .fillU8 n => List.replicate n 8
  | .fillU16 n => List.replicate n 16
  | .fillU32 n => List.replicate n 32
  | .fillU64 n => List.replicate n 64
  | .fillF32 n => List.replicate n 32
  | .fillF64 n => List.replicate n 64
  | .fillDec _ => []
  | .fillRaw size n => List.replicate n (8 * size)

/-- R94, R100, R146: the draws of a command that completes; a decimal command never does (R91). -/
def drawsOf : Instr → Nat
  | .seed _ => 0
  | .draw => 1
  | .sampleI8 => 1
  | .sampleI16 => 1
  | .sampleI32 => 1
  | .sampleI64 => 2
  | .sampleU8 => 1
  | .sampleU16 => 1
  | .sampleU32 => 1
  | .sampleU64 => 2
  | .sampleF32 => 1
  | .sampleF64 => 1
  | .sampleDec => 0
  | .sampleRaw size => (size + 3) / 4
  | .fillI8 n => n
  | .fillI16 n => n
  | .fillI32 n => n
  | .fillI64 n => 2 * n
  | .fillU8 n => n
  | .fillU16 n => n
  | .fillU32 n => n
  | .fillU64 n => 2 * n
  | .fillF32 n => n
  | .fillF64 n => n
  | .fillDec _ => 0
  | .fillRaw size n => n * ((size + 3) / 4)

/-- Every FILL but the decimal one, its SAMPLE, and the draws of one value (R43). -/
def fillTypes (size : Nat) : List ((Nat → Instr) × Instr × Nat) :=
  [(.fillI8, .sampleI8, 1), (.fillI16, .sampleI16, 1), (.fillI32, .sampleI32, 1), (.fillI64, .sampleI64, 2),
   (.fillU8, .sampleU8, 1), (.fillU16, .sampleU16, 1), (.fillU32, .sampleU32, 1), (.fillU64, .sampleU64, 2),
   (.fillF32, .sampleF32, 1), (.fillF64, .sampleF64, 1), (.fillRaw size, .sampleRaw size, (size + 3) / 4)]

/-- The TYPE of every FILL of ten types; decimal and RAW stand apart (R43). -/
def fillCodes : List (BitVec 8 × (Nat → Instr)) :=
  [(0x00#8, .fillI8), (0x01#8, .fillI16), (0x02#8, .fillI32), (0x03#8, .fillI64), (0x04#8, .fillU8), (0x05#8, .fillU16),
   (0x06#8, .fillU32), (0x07#8, .fillU64), (0x08#8, .fillF32), (0x09#8, .fillF64)]

/-- `n` executions of one command in a row. -/
def repeatExec (i : Instr) : Nat → State → Host.Outcome State Fault Refusal
  | 0, s => .next s
  | n + 1, s =>
    match exec i s with
    | .next t => repeatExec i n t
    | .fault f => .fault f
    | .refused r => .refused r

/-- Before the first SEED the command raises NotSeeded and changes nothing else (R122). -/
def NeedsSeed (i : Instr) : Prop := ∀ s, s.seeded = false → exec i s = .next (failed s .notSeeded)

/-- The word of a SAMPLE of a type other than RAW (R45, R50): it decodes with both unused fields 0 and is illegal with
either of them not 0. -/
def SampleWord (type : BitVec 8) (i : Instr) : Prop :=
  decode (mkCommand 0x03#8 type 0#16 0#32) = .ok i ∧
    ∀ size imm, size ≠ 0#16 ∨ imm ≠ 0#32 → decode (mkCommand 0x03#8 type size imm) = .error .illegalCommand

/-- A SAMPLE that makes one draw and emits a function of it (R80). -/
def OneDraw (i : Instr) (w : Nat) (f : Word → BitVec w) : Prop :=
  ∀ s, s.seeded = true → exec i s = .next (answered s (draw s.engine).2 [.val w (f (draw s.engine).1)])

/-- A SAMPLE of 64 bits: the first draw is the low half, the second the high half (R84). -/
def TwoDraws (i : Instr) : Prop :=
  ∀ s, s.seeded = true → ∃ v : BitVec 64,
    exec i s = .next (answered s (after 2 s.engine) [.val 64 v]) ∧
      v.toNat = (drawn 0 s.engine).toNat + 2 ^ 32 * (drawn 1 s.engine).toNat

/-- `m * 2 ^ k` is the number with a magnitude of `p` bits nearest to `P`, and has an even magnitude where another one is
as near: round to nearest, ties to even (R8, R90). -/
def Nearest (p P m k : Nat) : Prop :=
  2 ^ (p - 1) ≤ m ∧ m < 2 ^ p ∧
    (∀ m' k' : Nat, m' < 2 ^ p → |(P : Int) - m * 2 ^ k| ≤ |(P : Int) - m' * 2 ^ k'|) ∧
    ∀ m' k' : Nat, m' < 2 ^ p → m' * 2 ^ k' ≠ m * 2 ^ k → |(P : Int) - m' * 2 ^ k'| = |(P : Int) - m * 2 ^ k| →
      m % 2 = 0

/-- R90, R93: the pattern is the binary64 number nearest to `d * INV`, where `INV = (2^52 + 2^21) * 2^-83`; a normal
number of exponent field `E` is `(2^52 + fraction) * 2^(E - 1075)`, so in units of `2^-83` its power of two is
`E - 992`. -/
def RoundedProduct (d : Int) (b : BitVec 64) : Prop :=
  (d = 0 → b = 0#64) ∧
    (d ≠ 0 → b.toNat / 2 ^ 63 = (if d < 0 then 1 else 0) ∧ 992 ≤ b.toNat / 2 ^ 52 % 2 ^ 11 ∧
      b.toNat / 2 ^ 52 % 2 ^ 11 < 2047 ∧
      Nearest 53 (d.natAbs * (2 ^ 52 + 2 ^ 21)) (2 ^ 52 + b.toNat % 2 ^ 52) (b.toNat / 2 ^ 52 % 2 ^ 11 - 992))

/-- R45: a non-zero bit in a must-be-zero field of a command with OPC 0x01 to 0x04. -/
abbrev BadFields (w : Command) : Prop :=
  (opcField w = 0x01#8 ∧ (typeField w ≠ 0 ∨ sizeField w ≠ 0)) ∨
    (opcField w = 0x02#8 ∧ (typeField w ≠ 0 ∨ sizeField w ≠ 0 ∨ immField w ≠ 0)) ∨
    (opcField w = 0x03#8 ∧ ((typeField w ≠ 0x0B#8 ∧ sizeField w ≠ 0) ∨ immField w ≠ 0)) ∨
    (opcField w = 0x04#8 ∧ typeField w ≠ 0x0B#8 ∧ sizeField w ≠ 0)

/-- R47: a SAMPLE or FILL whose TYPE is reserved, or decimal while decimal is not supported. -/
abbrev BadType (w : Command) : Prop :=
  (opcField w = 0x03#8 ∨ opcField w = 0x04#8) ∧
    (0x0C ≤ (typeField w).toNat ∨ (typeField w = 0x0A#8 ∧ Config.decSupported = false))

/-- R47: a reserved OPC. -/
abbrev BadOpc (w : Command) : Prop :=
  opcField w ≠ 0x01#8 ∧ opcField w ≠ 0x02#8 ∧ opcField w ≠ 0x03#8 ∧ opcField w ≠ 0x04#8

/-- R124: the error a word reports, in the order of the rule; none where the command completes. -/
def reported (w : Command) (seeded : Bool) : Option Status :=
  if BadOpc w then some .illegalCommand
  else if BadType w then some .unsupportedType
  else if BadFields w then some .illegalCommand
  else if opcField w ≠ 0x01#8 ∧ seeded = false then some .notSeeded
  else none

/-- The same state with another content of slot 0. -/
def withSlotZero (v : Word) (s : State) : State :=
  { s with engine := { s.engine with x := writeSlot s.engine.x 0 v } }

end Sys2Proof.Claim

open Sys2Proof Sys2Proof.Machine Sys2Proof.Claim

/-! ### Words -/

/-- 30_encoding.md R50, R54: words written out from the opcode map and the examples of R54 decode to their commands. -/
def Obligations.DecodeWordsFromTheMap : Prop :=
  decode 0x01000000FFFFFFFF#64 = .ok (.seed (-1)) ∧ decode 0x0200000000000000#64 = .ok .draw ∧
    decode 0x0307000000000000#64 = .ok .sampleU64 ∧ decode 0x030B000600000000#64 = .ok (.sampleRaw 6) ∧
    decode 0x0408000000000003#64 = .ok (.fillF32 3) ∧ decode 0x040B000600000002#64 = .ok (.fillRaw 6 2)

/-- R44, R48, R54: the word of every command with operands in range decodes to that command. -/
def Obligations.DecodeOfEncode : Prop := ∀ i : Instr, i.WellFormed → decode (encode i) = .ok i

/-- R46: every word is the word of exactly the command it decodes to, operands in range, or it is rejected with one of the
two decode errors and is the word of no command. -/
def Obligations.EveryWordIsCommandOrError : Prop :=
  ∀ w : Command, (∃ i, i.WellFormed ∧ decode w = .ok i ∧ encode i = w) ∨
    ((decode w = .error .illegalCommand ∨ decode w = .error .unsupportedType) ∧
      ∀ i : Instr, i.WellFormed → encode i ≠ w)

/-- R50: a word is a command of a row exactly when `word AND mask = match`, and the rows are disjoint. -/
def Obligations.OpcodeMapSelects : Prop :=
  (∀ (w : Command) (i : Instr), w &&& (opcodeRow i).mask = (opcodeRow i).pattern ↔
      ∃ j, decode w = .ok j ∧ opcodeRow j = opcodeRow i) ∧
    ∀ (w : Command) (i j : Instr), w &&& (opcodeRow i).mask = (opcodeRow i).pattern →
      w &&& (opcodeRow j).mask = (opcodeRow j).pattern → opcodeRow i = opcodeRow j

/-- R47: the three kinds of reserved encoding and the error each raises, whatever the other fields and the state hold. -/
def Obligations.ReservedEncodings : Prop :=
  ∀ (w : Command) (s : State),
    (BadOpc w → runCommand w s = .next (failed s .illegalCommand)) ∧
    ((opcField w = 0x03#8 ∨ opcField w = 0x04#8) → 0x0C ≤ (typeField w).toNat →
      runCommand w s = .next (failed s .unsupportedType)) ∧
    ((opcField w = 0x03#8 ∨ opcField w = 0x04#8) → typeField w = 0x0A#8 → Config.decSupported = false →
      runCommand w s = .next (failed s .unsupportedType))

/-- R45: a non-zero must-be-zero field raises IllegalCommand, unless R47 applies first; RAW fills have no such field. -/
def Obligations.MustBeZeroFields : Prop :=
  (∀ (w : Command) (s : State), BadFields w → ¬ BadType w → runCommand w s = .next (failed s .illegalCommand)) ∧
    (∀ (w : Command) (s : State), BadFields w → BadType w → runCommand w s = .next (failed s .unsupportedType)) ∧
    ∀ size imm, decode (mkCommand 0x04#8 0x0B#8 size imm) = .ok (.fillRaw size.toNat imm.toNat)

/-- R124: one command reports one error, the first that applies in the rule's order; where none applies the command
completes with `DONE(OK)`. -/
def Obligations.ReportedErrorPriority : Prop :=
  ∀ (w : Command) (s : State),
    match reported w s.seeded with
    | some st => runCommand w s = .next (failed s st)
    | none => ∃ t, runCommand w s = .next t ∧ t.out.getLast? = some (.done .ok)

/-! ### Steps, reset, the host -/

/-- 20_memory.md R36, 30_encoding.md R53: a step on a presented word that decodes is `exec` of the command, the word
consumed. -/
def Obligations.StepExecutesCommand : Prop :=
  ∀ (s : State) (w : Command) (rest : List HostEvent) (i : Instr), s.cmd = .command w :: rest → decode w = .ok i →
    step s = exec i { s with cmd := rest }

/-- 30_encoding.md R48, 60_exceptions.md R125: a step on a presented word that does not decode appends the completion
record of the error and consumes the word. -/
def Obligations.StepReportsDecodeError : Prop :=
  ∀ (s : State) (w : Command) (rest : List HostEvent), s.cmd = .command w :: rest →
    (decode w = .error .illegalCommand →
      step s = .next { s with cmd := rest, out := s.out ++ [.done .illegalCommand] }) ∧
    (decode w = .error .unsupportedType →
      step s = .next { s with cmd := rest, out := s.out ++ [.done .unsupportedType] })

/-- 60_exceptions.md R130, 70_reset_and_hazards.md R151: with nothing presented the block waits and all state survives
(that a step is then taken at all is the model's choice, log entry 4). -/
def Obligations.StepIdle : Prop := ∀ s : State, s.cmd = [] → step s = .next s

/-- 70_reset_and_hazards.md R140: reset clears `seeded` and emits nothing (which values it leaves in the array and the
cursors is free, log entry 1). -/
def Obligations.StepReset : Prop :=
  ∀ (s : State) (rest : List HostEvent), s.cmd = .reset :: rest →
    ∃ t, step s = .next t ∧ t.seeded = false ∧ t.cmd = rest ∧ t.out = s.out

/-- 70_reset_and_hazards.md R148: reset during a command. With `k` of its value beats out, those stand, no completion
record follows and the block is reset (that the place is given by the host as `k` is the model's choice, log entry 5). -/
def Obligations.StepCutCommand : Prop :=
  ∀ (s : State) (w : Command) (k : Nat) (rest : List HostEvent), s.cmd = .commandCut w k :: rest →
    ∃ u beats st t, runCommand w { s with cmd := rest } = .next u ∧ u.out = s.out ++ beats ++ [.done st] ∧
      (∀ r ∈ beats, IsBeat r) ∧ step s = .next t ∧ t.out = s.out ++ beats.take k ∧ t.seeded = false ∧ t.cmd = rest

/-- 30_encoding.md R51, R53: a step takes at most the oldest thing presented and only appends to the output stream. -/
def Obligations.StepKeepsStreams : Prop :=
  ∀ s t : State, step s = .next t → t.cmd = s.cmd.tail ∧ ∃ records, t.out = s.out ++ records

/-- 30_encoding.md R56, 60_exceptions.md R126: no step stops the machine. -/
def Obligations.StepNeverStops : Prop := ∀ s : State, ∃ t, step s = .next t

/-- 10_state.md R22, 70_reset_and_hazards.md R142: after reset `seeded` is 0, and in every state with `seeded = 0` every
word but a SEED answers with an error and leaves the block as it was (the empty ports after reset are the model's choice,
log entries 2 and 3). -/
def Obligations.ResetState : Prop :=
  State.reset.seeded = false ∧ State.reset.cmd = [] ∧ State.reset.out = [] ∧
    ∀ (w : Command) (s : State), s.seeded = false → (∀ z, decode w ≠ .ok (.seed z)) →
      ∃ st, st ≠ .ok ∧ runCommand w s = .next (failed s st)

/-- 10_state.md R19, R20: the invariants that every step keeps hold after reset, where there is no generator. -/
def Obligations.InvariantsAtReset : Prop := LagInv State.reset ∧ RangeInv State.reset

/-! ### SEED -/

/-- R60 to R65: SEED fills the array by the strided walk, mixes it in four in-place passes, sets the cursors to 0 and 21,
sets `seeded`, answers `DONE(OK)` and changes nothing else; its word decodes, and a non-zero TYPE or SIZE is illegal. -/
def Obligations.SeedConstructs : Prop :=
  ∀ (z : Int) (s : State), SeedOk z →
    (∃ y0 y1 y2 y3 t, exec (.seed z) s = .next t ∧ Walked adjust (startInt z) y0 ∧ Mixed adjust y0 y1 ∧
      Mixed adjust y1 y2 ∧ Mixed adjust y2 y3 ∧ Mixed adjust y3 t.engine.x ∧
      t.engine.cursorA = 0 ∧ t.engine.cursorB = 21 ∧
      t = { s with engine := t.engine, seeded := true, out := s.out ++ [.done .ok] }) ∧
    decode (mkCommand 0x01#8 0#8 0#16 (BitVec.ofInt 32 z)) = .ok (.seed z) ∧
    ∀ type size imm, type ≠ 0#8 ∨ size ≠ 0#16 → decode (mkCommand 0x01#8 type size imm) = .error .illegalCommand

/-- R62, R63: no subtraction of steps 2 and 3 wraps, for any seed, and every slot in `x[1..54]` is then in
`[0, MAX_INT - 1]`. -/
def Obligations.SeedWalkNeverWraps : Prop :=
  ∀ (z : Int) (x : Vector Word 56), SeedOk z →
    Walked adjustExact (startInt z) (seedFill z x) ∧
      ∀ i, 1 ≤ i → i ≤ 54 → 0 ≤ slotInt (seedFill z x) i ∧ slotInt (seedFill z x) i < 2147483647

/-- R64: a mixing pass is the in-place ascending update, slot 0 stays, and slots in `[-1, MAX_INT]` stay there. -/
def Obligations.MixingPass : Prop :=
  ∀ x : Vector Word 56, Mixed adjust x (mixPass x) ∧ readSlot (mixPass x) 0 = readSlot x 0 ∧
    (SlotsNearRange x → SlotsNearRange (mixPass x))

/-- R67: SEED may be issued at any time, and the generator it constructs depends on the new seed only. -/
def Obligations.SeedDiscardsOldGenerator : Prop :=
  ∀ (z : Int) (s t : State), ∃ s' t', exec (.seed z) s = .next s' ∧ exec (.seed z) t = .next t' ∧
    s'.seeded = true ∧ t'.seeded = true ∧ SameGenerator s'.engine t'.engine

/-- R149: `SEED z` and `SEED -z` construct the same generator, and so do the three seeds of the rule. -/
def Obligations.SeedsAlias : Prop :=
  ∀ s : State, (∀ z, SeedOk z → z ≠ -2147483648 → exec (.seed z) s = exec (.seed (-z)) s) ∧
    exec (.seed (-2147483648)) s = exec (.seed (-2147483647)) s ∧
    exec (.seed (-2147483647)) s = exec (.seed 2147483647) s

/-- 10_state.md R20 (b), 40_state_engine.md R75 (b): for a seed of magnitude at most MSEED no subtraction of SEED wraps,
and the array is in range after step 3 and after every pass. -/
def Obligations.SmallSeedsNeverWrap : Prop :=
  ∀ (z : Int) (s : State), |z| ≤ 161803398 →
    ∃ y0 y1 y2 y3 t, exec (.seed z) s = .next t ∧ Walked adjustExact (startInt z) y0 ∧ Mixed adjustExact y0 y1 ∧
      Mixed adjustExact y1 y2 ∧ Mixed adjustExact y2 y3 ∧ Mixed adjustExact y3 t.engine.x ∧
      SlotsInRange y0 ∧ SlotsInRange y1 ∧ SlotsInRange y2 ∧ SlotsInRange y3 ∧ SlotsInRange t.engine.x

/-- 40_state_engine.md R75 (a): for every seed, SEED ends with every slot of `x[1..55]` in `[0, MAX_INT - 1]`. -/
def Obligations.SeedEndsInRange : Prop :=
  ∀ (z : Int) (s : State), SeedOk z → ∃ t, exec (.seed z) s = .next t ∧ SlotsInRange t.engine.x

/-! ### Draws and DRAW -/

/-- R68, R69: DRAW steps both cursors, emits the adjusted difference of the two slots they index as a 32-bit beat, stores
it at the stepped `cursorA` and changes nothing else; NotSeeded before SEED; IllegalCommand for a non-zero field. -/
def Obligations.DrawStoresAndEmits : Prop :=
  (∀ s : State, s.seeded = true →
    ∃ (a b : Nat) (r : Int) (t : State), exec .draw s = .next t ∧ a = s.engine.cursorA.val % 55 + 1 ∧
      b = s.engine.cursorB.val % 55 + 1 ∧ r = adjustDraw (slotInt s.engine.x a - slotInt s.engine.x b) ∧
      (CursorLag s.engine → a ≠ b) ∧ slotInt t.engine.x a = r ∧
      (∀ j : Fin 56, j.val ≠ a → readSlot t.engine.x j = readSlot s.engine.x j) ∧
      t.engine.cursorA.val = a ∧ t.engine.cursorB.val = b ∧
      t = { s with engine := t.engine, out := s.out ++ [.val 32 (BitVec.ofInt 32 r), .done .ok] }) ∧
    NeedsSeed .draw ∧ decode (mkCommand 0x02#8 0#8 0#16 0#32) = .ok .draw ∧
    ∀ type size imm, type ≠ 0#8 ∨ size ≠ 0#16 ∨ imm ≠ 0#32 →
      decode (mkCommand 0x02#8 type size imm) = .error .illegalCommand

/-- R70, 10_state.md R20 (a): from slots in `[0, MAX_INT - 1]` a draw returns a value in that range and leaves the slots in
it. -/
def Obligations.DrawKeepsRange : Prop :=
  ∀ e : Engine, SlotsInRange e.x → InRange (draw e).1 ∧ SlotsInRange (draw e).2.x

/-- R19: the cursors are 21 apart modulo 55 after SEED, every draw keeps that, and the positions after the `k`-th draw are
those of the rule. -/
def Obligations.CursorLagAndPositions : Prop :=
  (∀ e : Engine, CursorLag e → CursorLag (draw e).2) ∧
    ∀ (z : Int) (e : Engine), CursorLag (seedEngine z e) ∧ ∀ k, 1 ≤ k →
      (after k (seedEngine z e)).cursorA.val = (k - 1) % 55 + 1 ∧
      (after k (seedEngine z e)).cursorB.val = (k + 20) % 55 + 1

/-- R71: the draws after a SEED are the lagged-Fibonacci recurrence with lags 55 and 34, and draw `k` writes only slot
`((k - 1) mod 55) + 1`. -/
def Obligations.LaggedFibonacci : Prop :=
  ∀ (z : Int) (e0 : Engine) (k : Nat), 1 ≤ k →
    let e := seedEngine z e0
    let r := fun k => (drawn (k - 1) e).toInt
    (k ≤ 34 → r k = adjustDraw (slotInt e.x k - slotInt e.x (k + 21))) ∧
    (35 ≤ k → k ≤ 55 → r k = adjustDraw (slotInt e.x k - r (k - 34))) ∧
    (56 ≤ k → r k = adjustDraw (r (k - 55) - r (k - 34))) ∧
    slotInt (after k e).x ((k - 1) % 55 + 1) = r k ∧
    ∀ j, j ≠ (k - 1) % 55 + 1 → slotInt (after k e).x j = slotInt (after (k - 1) e).x j

/-- 70_reset_and_hazards.md R146, 40_state_engine.md R72: every command but SEED changes the engine by its number of draws
and by nothing else; a command that raises an error makes none. -/
def Obligations.DrawAccounting : Prop :=
  (∀ (i : Instr) (s : State), isSeed i = false →
    ∃ t, exec i s = .next t ∧ t.engine = after (if s.seeded then drawsOf i else 0) s.engine) ∧
    ∀ (w : Command) (s : State) (k : ErrorKind), decode w = .error k →
      ∃ t, runCommand w s = .next t ∧ t.engine = s.engine

/-- 10_state.md R11: no command reads slot 0 and none writes it. -/
def Obligations.SlotZeroUntouched : Prop :=
  ∀ (i : Instr) (s t : State), exec i s = .next t → readSlot t.engine.x 0 = readSlot s.engine.x 0 ∧
    ∀ v, exec i (withSlotZero v s) = .next (withSlotZero v t)

/-- 10_state.md R12, R15: the frame of every command but SEED: the flag, the queue, the reset counter, and every slot but
those at the stepped `cursorA` of its draws. -/
def Obligations.FrameOfDrawingCommands : Prop :=
  ∀ (i : Instr) (s t : State), isSeed i = false → exec i s = .next t →
    t.seeded = s.seeded ∧ t.cmd = s.cmd ∧ t.resets = s.resets ∧
      ∀ j : Fin 56, (∀ m, m < drawsOf i → (after (m + 1) s.engine).cursorA ≠ j) →
        readSlot t.engine.x j = readSlot s.engine.x j

/-! ### SAMPLE -/

/-- R81, R82, R83, R85, R86, R87: the integers of 8, 16 and 32 bits are the low bits of one draw; NotSeeded before SEED;
IllegalCommand for a non-zero SIZE or IMM. -/
def Obligations.SampleNarrowIntegers : Prop :=
  (OneDraw .sampleI8 8 (fun d => BitVec.ofNat 8 (d.toNat % 256)) ∧
    OneDraw .sampleU8 8 (fun d => BitVec.ofNat 8 (d.toNat % 256)) ∧
    OneDraw .sampleI16 16 (fun d => BitVec.ofNat 16 (d.toNat % 65536)) ∧
    OneDraw .sampleU16 16 (fun d => BitVec.ofNat 16 (d.toNat % 65536)) ∧
    OneDraw .sampleI32 32 (fun d => d) ∧ OneDraw .sampleU32 32 (fun d => d)) ∧
  (NeedsSeed .sampleI8 ∧ NeedsSeed .sampleU8 ∧ NeedsSeed .sampleI16 ∧ NeedsSeed .sampleU16 ∧ NeedsSeed .sampleI32 ∧
    NeedsSeed .sampleU32) ∧
  SampleWord 0x00#8 .sampleI8 ∧ SampleWord 0x01#8 .sampleI16 ∧ SampleWord 0x02#8 .sampleI32 ∧
    SampleWord 0x04#8 .sampleU8 ∧ SampleWord 0x05#8 .sampleU16 ∧ SampleWord 0x06#8 .sampleU32

/-- R84, R88: a 64-bit integer takes exactly two draws, the first low, the second high. -/
def Obligations.SampleWideIntegers : Prop :=
  TwoDraws .sampleI64 ∧ TwoDraws .sampleU64 ∧ NeedsSeed .sampleI64 ∧ NeedsSeed .sampleU64 ∧
    SampleWord 0x03#8 .sampleI64 ∧ SampleWord 0x07#8 .sampleU64

/-- R93: `INV` has the pattern of the rule, and no number `m * 2 ^ (k - j - 83)` with a magnitude of 53 bits is nearer to
`1 / 2147483647` (both sides scaled by `2147483647 * 2 ^ (83 + j)`). -/
def Obligations.ScaleConstant : Prop :=
  bits64 Machine.inv = 0x3E00000000200000#64 ∧ Machine.inv.neg = false ∧ Machine.inv.exp = -83 ∧
    ∀ m k j : Nat, m < 2 ^ 53 →
      |(Machine.inv.mag : Int) * 2147483647 - 2 ^ 83| * 2 ^ j ≤ |(m : Int) * 2 ^ k * 2147483647 - 2 ^ (83 + j)|

/-- R90, R93: SAMPLE.F64 emits the binary64 number nearest to `d * INV`, ties to even. -/
def Obligations.SampleF64RoundsProduct : Prop :=
  (∀ s : State, s.seeded = true → ∃ b : BitVec 64,
    exec .sampleF64 s = .next (answered s (draw s.engine).2 [.val 64 b]) ∧ RoundedProduct (draw s.engine).1.toInt b) ∧
    NeedsSeed .sampleF64 ∧ SampleWord 0x09#8 .sampleF64

/-- R90: from an in-range state the binary64 sample is at most 0x1.FFFFFFFCp-1, below 1.0; 0 and 1 map to +0.0 and `INV`;
the mapping is monotonic. -/
def Obligations.F64InUnitInterval : Prop :=
  (∀ s : State, s.seeded = true → SlotsInRange s.engine.x → ∃ b : BitVec 64,
    exec .sampleF64 s = .next (answered s (draw s.engine).2 [.val 64 b]) ∧ b.toNat ≤ 0x3FEFFFFFFFC00000) ∧
    bits64 (scaleDraw 0#32) = 0#64 ∧ bits64 (scaleDraw 1#32) = 0x3E00000000200000#64 ∧
    ∀ d1 d2 : Word, InRange d1 → InRange d2 → d1.toInt ≤ d2.toInt →
      (bits64 (scaleDraw d1)).toNat ≤ (bits64 (scaleDraw d2)).toNat

/-- R89: SAMPLE.F32 forms the binary64 product and narrows it toward zero: the same sign, the exponent rebiased from 1023
to 127, the fraction cut from 52 bits to its top 23. -/
def Obligations.SampleF32Truncates : Prop :=
  (∀ s : State, s.seeded = true → ∃ b : BitVec 32,
    exec .sampleF32 s = .next (answered s (draw s.engine).2 [.val 32 b]) ∧
      ((draw s.engine).1 = 0#32 → b = 0#32) ∧
      ((draw s.engine).1 ≠ 0#32 → ∃ y : BitVec 64, RoundedProduct (draw s.engine).1.toInt y ∧
        b.toNat / 2 ^ 31 = y.toNat / 2 ^ 63 ∧ b.toNat / 2 ^ 23 % 2 ^ 8 + 896 = y.toNat / 2 ^ 52 % 2 ^ 11 ∧
        b.toNat % 2 ^ 23 = y.toNat % 2 ^ 52 / 2 ^ 29)) ∧
    NeedsSeed .sampleF32 ∧ SampleWord 0x08#8 .sampleF32

/-- R89, 90_conflicts.md C4: from an in-range state the binary32 sample is at most 0x3F7FFFFF, below 1.0; under `RNE`
narrowing it would reach exactly 1.0, for the draws from 2147483583 up. -/
def Obligations.F32InUnitInterval : Prop :=
  (∀ s : State, s.seeded = true → SlotsInRange s.engine.x → ∃ b : BitVec 32,
    exec .sampleF32 s = .next (answered s (draw s.engine).2 [.val 32 b]) ∧ b.toNat ≤ 0x3F7FFFFF) ∧
    ∀ d : Word, InRange d → (bits32 (narrow32 .rne (scaleDraw d))).toNat ≤ 0x3F800000 ∧
      (bits32 (narrow32 .rne (scaleDraw d)) = 0x3F800000#32 ↔ 2147483583 ≤ d.toInt)

/-- R92, R33, R94: a raw value of `size` bytes takes `ceil(size / 4)` draws; its byte `k` is byte `k mod 4` of draw
`k div 4`; every encodable size is served; a non-zero IMM is illegal. -/
def Obligations.SampleRawBytes : Prop :=
  (∀ (size : Nat) (s : State), s.seeded = true → ∃ v : BitVec (8 * size),
    exec (.sampleRaw size) s = .next (answered s (after ((size + 3) / 4) s.engine) [.val (8 * size) v]) ∧
      ∀ k, k < size →
        v.toNat / 256 ^ k % 256 = (drawn (k / 4) s.engine).toNat / 256 ^ (k % 4) % 256) ∧
    ∀ size, NeedsSeed (.sampleRaw size) ∧
      (SizeOk size → decode (mkCommand 0x03#8 0x0B#8 (BitVec.ofNat 16 size) 0#32) = .ok (.sampleRaw size)) ∧
      ∀ z imm, imm ≠ 0#32 → decode (mkCommand 0x03#8 0x0B#8 z imm) = .error .illegalCommand

/-- R92, R33, R115: `SAMPLE.RAW 8` answers as SAMPLE.U64 does and `SAMPLE.RAW 4` as SAMPLE.U32; `SAMPLE.RAW 0` draws
nothing. -/
def Obligations.RawAgreesWithIntegers : Prop :=
  ∀ s : State, exec (.sampleRaw 8) s = exec .sampleU64 s ∧ exec (.sampleRaw 4) s = exec .sampleU32 s ∧
    (s.seeded = true → exec (.sampleRaw 0) s = .next (answered s s.engine [.val 0 0#0]))

/-- R91, R111 with `DEC_SUPPORTED = 0`: the decimal commands answer UnsupportedType in every state, for every count, and
so does every word of their OPC and TYPE, whatever its other fields hold. -/
def Obligations.DecimalUnsupported : Prop :=
  ∀ s : State, exec .sampleDec s = .next (failed s .unsupportedType) ∧
    (∀ n, exec (.fillDec n) s = .next (failed s .unsupportedType)) ∧
    ∀ size imm, runCommand (mkCommand 0x03#8 0x0A#8 size imm) s = .next (failed s .unsupportedType) ∧
      runCommand (mkCommand 0x04#8 0x0A#8 size imm) s = .next (failed s .unsupportedType)

/-- R91, R111 with `DEC_SUPPORTED = 1`: one draw a value, `dec_scale` of it, `DEC_W` bits (both open, log entry 6);
NotSeeded before SEED. -/
def Obligations.DecimalSupported : Prop :=
  ∀ (s : State) (n : Nat),
    (s.seeded = false → sampleDecWith true s = failed s .notSeeded ∧ fillDecWith true n s = failed s .notSeeded) ∧
    (s.seeded = true → ∃ beats : List Record,
      sampleDecWith true s =
        answered s (after 1 s.engine) [.val Config.decWidth (Config.decScale (drawn 0 s.engine))] ∧
      fillDecWith true n s = answered s (after n s.engine) beats ∧ beats.length = n ∧
      ∀ k, k < n → beats[k]? = some (.val Config.decWidth (Config.decScale (drawn k s.engine))))

/-! ### FILL -/

/-- R100: a FILL emits `n` values in order and one `DONE(OK)`; value `k` is what the SAMPLE of the type emits from the
state that values 0 to `k - 1` leave; NotSeeded before SEED. -/
def Obligations.FillRuns : Prop :=
  ∀ (size n : Nat) (s : State) (fill : Nat → Instr) (sample : Instr) (per : Nat), (fill, sample, per) ∈ fillTypes size →
    NeedsSeed (fill n) ∧
    (s.seeded = true → ∃ beats, exec (fill n) s = .next (answered s (after (n * per) s.engine) beats) ∧
      beats.length = n ∧ ∀ (k : Nat) (h : k < beats.length),
        exec sample { s with engine := after (k * per) s.engine } =
          .next (answered s (after ((k + 1) * per) s.engine) [beats[k]]))

/-- R101 to R112: the word of every FILL: it decodes to the command with its count, and a non-zero SIZE is illegal where
the type is not RAW. A decimal one is the exception: that word reports UnsupportedType (R47, R111). -/
def Obligations.FillWords : Prop :=
  (∀ (type : BitVec 8) (fill : Nat → Instr), (type, fill) ∈ fillCodes → ∀ n, CountOk n →
    decode (mkCommand 0x04#8 type 0#16 (BitVec.ofNat 32 n)) = .ok (fill n) ∧
      ∀ size, size ≠ 0#16 → decode (mkCommand 0x04#8 type size (BitVec.ofNat 32 n)) = .error .illegalCommand) ∧
  (∀ n, CountOk n → decode (mkCommand 0x04#8 0x0A#8 0#16 (BitVec.ofNat 32 n)) = .ok (.fillDec n) ∧
    ∀ size, size ≠ 0#16 → decode (mkCommand 0x04#8 0x0A#8 size (BitVec.ofNat 32 n)) = .error .unsupportedType) ∧
  ∀ size n, SizeOk size → CountOk n →
    decode (mkCommand 0x04#8 0x0B#8 (BitVec.ofNat 16 size) (BitVec.ofNat 32 n)) = .ok (.fillRaw size n)

/-- R114: `FILL.T n` gives the beats and the final generator of `n` consecutive `SAMPLE.T`, and two fills in a row those
of one; only the completion records differ. -/
def Obligations.FillEquivalence : Prop :=
  ∀ (size : Nat) (s : State) (fill : Nat → Instr) (sample : Instr) (per : Nat), (fill, sample, per) ∈ fillTypes size →
    s.seeded = true →
    (∀ n, ∃ t u beats, exec (fill n) s = .next t ∧ repeatExec sample n s = .next u ∧
      t.out = s.out ++ beats ++ [.done .ok] ∧ u.out = s.out ++ beats.flatMap (fun b => [b, .done .ok]) ∧
      t.engine = u.engine) ∧
    ∀ n1 n2, ∃ t1 t2 t beats1 beats2, exec (fill n1) s = .next t1 ∧ exec (fill n2) t1 = .next t2 ∧
      exec (fill (n1 + n2)) s = .next t ∧ t1.out = s.out ++ beats1 ++ [.done .ok] ∧
      t2.out = t1.out ++ beats2 ++ [.done .ok] ∧ t.out = s.out ++ (beats1 ++ beats2) ++ [.done .ok] ∧
      t2.engine = t.engine

/-- R113: a fill of no values draws nothing, emits no beat and answers `DONE(OK)`; the errors are still raised. -/
def Obligations.FillZero : Prop :=
  (∀ (size : Nat) (s : State) (fill : Nat → Instr) (sample : Instr) (per : Nat), (fill, sample, per) ∈ fillTypes size →
    (s.seeded = true → exec (fill 0) s = .next (answered s s.engine [])) ∧
    (s.seeded = false → exec (fill 0) s = .next (failed s .notSeeded))) ∧
  ∀ (type : BitVec 8) (s : State), 0x0C ≤ type.toNat →
    runCommand (mkCommand 0x04#8 type 0#16 0#32) s = .next (failed s .unsupportedType)

/-! ### Records, errors, the flag -/

/-- R51: every command emits its value beats, of the widths of R43, and then exactly one completion record; one that
raises an error emits no beat. -/
def Obligations.OneCompletionRecord : Prop :=
  ∀ (i : Instr) (s : State), ∃ t beats st, exec i s = .next t ∧ t.out = s.out ++ beats ++ [.done st] ∧
    (st = .ok → beats.map beatWidth = (beatWidths i).map some) ∧ (st ≠ .ok → beats = [])

/-- R52: the status codes, and that 0x4 to 0xF are never produced. -/
def Obligations.StatusCodes : Prop :=
  statusCode .ok = 0x0#4 ∧ statusCode (errorStatus .unsupportedType) = 0x1#4 ∧
    statusCode (errorStatus .notSeeded) = 0x2#4 ∧ statusCode (errorStatus .illegalCommand) = 0x3#4 ∧
    ∀ st, (statusCode st).toNat < 4

/-- R125: a word whose completion record is not `DONE(OK)` changes nothing but the output stream, by that one record. -/
def Obligations.ErrorEntry : Prop :=
  ∀ (w : Command) (s : State), ∃ t st, runCommand w s = .next t ∧ t.out.getLast? = some (.done st) ∧
    (st ≠ .ok → t = failed s st)

/-- R126: an error is not sticky: the same word sent again in the same `seeded` state raises the same error, and any other
word then does what it would have done. -/
def Obligations.ErrorsNotSticky : Prop :=
  ∀ (w v : Command) (s : State) (st : Status), runCommand w s = .next (failed s st) →
    runCommand w (failed s st) = .next (failed (failed s st) st) ∧
      ∀ t, runCommand v s = .next t → ∃ t', runCommand v (failed s st) = .next t' ∧ t'.engine = t.engine ∧
        t'.seeded = t.seeded ∧ t'.cmd = t.cmd ∧
        ∃ records, t.out = s.out ++ records ∧ t'.out = s.out ++ [.done st] ++ records

/-- R122, R124: before SEED, DRAW, every SAMPLE and every FILL raise NotSeeded and change nothing (the decimal ones, which
are not supported, raise UnsupportedType first); SEED never does. -/
def Obligations.NotSeededBeforeSeed : Prop :=
  (∀ i, isSeed i = false → isDecimal i = false → NeedsSeed i) ∧
    ∀ (z : Int) (s : State), ∃ t, exec (.seed z) s = .next t ∧ t.out = s.out ++ [.done .ok]

/-- R15: `seeded` is 0 after reset; every SEED sets it; no step but one with a reset clears it; no step but one that
executes SEED sets it; where it is 0 every other command that is not decimal raises NotSeeded. -/
def Obligations.SeededFlag : Prop :=
  State.reset.seeded = false ∧
    (∀ (z : Int) (s : State), ∃ t, exec (.seed z) s = .next t ∧ t.seeded = true) ∧
    (∀ s t : State, step s = .next t → s.seeded = true → t.seeded = false →
      ∃ rest, s.cmd = .reset :: rest ∨ ∃ w k, s.cmd = .commandCut w k :: rest) ∧
    (∀ s t : State, step s = .next t → s.seeded = false → t.seeded = true →
      ∃ w z rest, s.cmd = .command w :: rest ∧ decode w = .ok (.seed z)) ∧
    ∀ i, isSeed i = false → isDecimal i = false → NeedsSeed i

/-! ### Invariants of every step -/

/-- R19: whenever `seeded = 1` the cursors are 21 apart modulo 55, and every step keeps that. -/
def Obligations.StepKeepsCursorLag : Prop := ∀ s t : State, LagInv s → step s = .next t → LagInv t

/-- R20, R75: whenever `seeded = 1` every slot of `x[1..55]` is in `[0, MAX_INT - 1]`, and every step keeps that, a SEED
of any seed included. -/
def Obligations.StepKeepsSlotRange : Prop := ∀ s t : State, RangeInv s → step s = .next t → RangeInv t

/-- R11, R17, R21, R141: nothing a host can send tells apart two states that differ only in slot 0, in the contents of the
generator while `seeded = 0`, or in the reset counter: a step takes them to such states again, with the same records. -/
def Obligations.StepKeepsIndistinguishable : Prop :=
  ∀ s s' t : State, Indistinguishable s s' → step s = .next t →
    ∃ t', step s' = .next t' ∧ Indistinguishable t t'

/-- R76: two copies of the block given `SEED z` and then the same sequence emit the same records and end in the same
generator, whatever they held before and however long the sequence is. -/
def Obligations.SameSeedSameRecords : Prop :=
  ∀ (z : Int) (events : List HostEvent) (s s' : State) (k : Nat), SeedOk z →
    s.cmd = .command (encode (.seed z)) :: events → s'.cmd = .command (encode (.seed z)) :: events →
    s.out = s'.out → 1 ≤ k →
    ∃ t t', Host.Core.run core k s = .next t ∧ Host.Core.run core k s' = .next t' ∧ Indistinguishable t t'
end

