-- ==== Sys2Proof/Laws/State.lean ====
section
/-!
SUPPORT. One lemma per field per update of State, each true by rfl, and the slot and cursor accessors' laws.
-/

namespace Sys2Proof.Machine

@[simp] theorem emit_engine (r : List Record) (s : State) : (emit r s).engine = s.engine := rfl
@[simp] theorem emit_seeded (r : List Record) (s : State) : (emit r s).seeded = s.seeded := rfl
@[simp] theorem emit_cmd (r : List Record) (s : State) : (emit r s).cmd = s.cmd := rfl
@[simp] theorem emit_out (r : List Record) (s : State) : (emit r s).out = s.out ++ r := rfl
@[simp] theorem emit_resets (r : List Record) (s : State) : (emit r s).resets = s.resets := rfl

@[simp] theorem done_engine (st : Status) (s : State) : (done st s).engine = s.engine := rfl
@[simp] theorem done_seeded (st : Status) (s : State) : (done st s).seeded = s.seeded := rfl
@[simp] theorem done_cmd (st : Status) (s : State) : (done st s).cmd = s.cmd := rfl
@[simp] theorem done_out (st : Status) (s : State) : (done st s).out = s.out ++ [.done st] := rfl
@[simp] theorem done_resets (st : Status) (s : State) : (done st s).resets = s.resets := rfl

@[simp] theorem raise_engine (k : ErrorKind) (s : State) : (raise k s).engine = s.engine := rfl
@[simp] theorem raise_seeded (k : ErrorKind) (s : State) : (raise k s).seeded = s.seeded := rfl
@[simp] theorem raise_cmd (k : ErrorKind) (s : State) : (raise k s).cmd = s.cmd := rfl
@[simp] theorem raise_out (k : ErrorKind) (s : State) : (raise k s).out = s.out ++ [.done (errorStatus k)] := rfl
@[simp] theorem raise_resets (k : ErrorKind) (s : State) : (raise k s).resets = s.resets := rfl

@[simp] theorem setSeeded_engine (s : State) : (setSeeded s).engine = s.engine := rfl
@[simp] theorem setSeeded_seeded (s : State) : (setSeeded s).seeded = true := rfl
@[simp] theorem setSeeded_cmd (s : State) : (setSeeded s).cmd = s.cmd := rfl
@[simp] theorem setSeeded_out (s : State) : (setSeeded s).out = s.out := rfl
@[simp] theorem setSeeded_resets (s : State) : (setSeeded s).resets = s.resets := rfl

@[simp] theorem resetBlock_engine (s : State) : (resetBlock s).engine = resetEngine s.resets := by
  simp only [resetBlock]
@[simp] theorem resetBlock_seeded (s : State) : (resetBlock s).seeded = false := by
  simp only [resetBlock]
@[simp] theorem resetBlock_cmd (s : State) : (resetBlock s).cmd = s.cmd := by
  simp only [resetBlock]
@[simp] theorem resetBlock_out (s : State) : (resetBlock s).out = s.out := by
  simp only [resetBlock]
@[simp] theorem resetBlock_resets (s : State) : (resetBlock s).resets = s.resets + 1 := by
  simp only [resetBlock]

@[simp] theorem present_engine (w : Command) (s : State) : (present w s).engine = s.engine := rfl
@[simp] theorem present_seeded (w : Command) (s : State) : (present w s).seeded = s.seeded := rfl
@[simp] theorem present_cmd (w : Command) (s : State) : (present w s).cmd = .command w :: s.cmd := rfl
@[simp] theorem present_out (w : Command) (s : State) : (present w s).out = s.out := rfl
@[simp] theorem present_resets (w : Command) (s : State) : (present w s).resets = s.resets := rfl

@[simp] theorem ifSeeded_of_seeded {s : State} (h : s.seeded = true) (body : State) : ifSeeded s body = body := by
  simp [ifSeeded, h]

@[simp] theorem ifSeeded_of_not_seeded {s : State} (h : s.seeded = false) (body : State) :
    ifSeeded s body = raise .notSeeded s := by
  simp [ifSeeded, h]

@[simp] theorem ifDecimal_true (s body : State) : ifDecimal true s body = body := rfl
@[simp] theorem ifDecimal_false (s body : State) : ifDecimal false s body = raise .unsupportedType s := rfl

@[simp] theorem readSlot_writeSlot_self (x : Vector Word 56) (i : Fin 56) (v : Word) :
    readSlot (writeSlot x i v) i = v := by
  simp [readSlot, writeSlot]

theorem readSlot_writeSlot_of_ne (x : Vector Word 56) {i j : Fin 56} (v : Word) (h : j ≠ i) :
    readSlot (writeSlot x i v) j = readSlot x j := by
  have : i.val ≠ j.val := fun e => h (Fin.ext e.symm)
  simp [readSlot, writeSlot, this]

theorem readSlot_writeSlot (x : Vector Word 56) (i j : Fin 56) (v : Word) :
    readSlot (writeSlot x i v) j = if j = i then v else readSlot x j := by
  split
  · subst j; simp
  · exact readSlot_writeSlot_of_ne x v ‹_›

/-- Two arrays that read the same at every slot are the same. -/
theorem slots_ext {x y : Vector Word 56} (h : ∀ i, readSlot x i = readSlot y i) : x = y :=
  Vector.ext fun i hi => h ⟨i, hi⟩

/-- R19: stepping maps `c` to `(c mod 55) + 1`. -/
theorem stepCursor_val (c : Fin 56) : (stepCursor c).val = c.val % 55 + 1 := by
  unfold stepCursor; split <;> simp <;> omega

theorem stepCursor_ne_zero (c : Fin 56) : stepCursor c ≠ 0 := by
  intro h; have := stepCursor_val c; simp [h] at this

end Sys2Proof.Machine
end

