-- ==== Sys2Proof/Laws/Arith.lean ====
section
/-!
SUPPORT. What the 32-bit operations of 00_scope.md R8 do, as integers.
-/

namespace Sys2Proof.Machine

theorem wrap32_toInt (z : Int) : (wrap32 z).toInt = z.bmod (2 ^ 32) := by
  simp [wrap32]

/-- `wrap32` is exact on the signed 32-bit range. -/
theorem wrap32_toInt_of_fits {z : Int} (h : minInt ≤ z ∧ z ≤ maxInt) : (wrap32 z).toInt = z := by
  rw [wrap32_toInt]; simp only [minInt, maxInt] at h; rw [Int.bmod_def]; omega

theorem toInt_bounds (a : Word) : minInt ≤ a.toInt ∧ a.toInt ≤ maxInt := by
  have h1 := a.le_toInt; have h2 := a.toInt_lt; simp only [minInt, maxInt]; omega

theorem wrap32_toInt_self (a : Word) : wrap32 a.toInt = a := by simp [wrap32]

theorem sub32_toInt (a b : Word) : (sub32 a b).toInt = (a.toInt - b.toInt).bmod (2 ^ 32) := wrap32_toInt _

theorem add32_toInt (a b : Word) : (add32 a b).toInt = (a.toInt + b.toInt).bmod (2 ^ 32) := wrap32_toInt _

/-- The adjustment as integers: a negative value gets MAX_INT added, and that sum always fits (R63, R64, R68). -/
theorem addMaxIfNeg_toInt (t : Word) :
    (addMaxIfNeg t).toInt = if t.toInt < 0 then t.toInt + maxInt else t.toInt := by
  have h := toInt_bounds t
  unfold addMaxIfNeg
  split
  · rw [add32, wrap32_toInt_of_fits (z := maxInt) (by decide), wrap32_toInt_of_fits]
    simp only [minInt, maxInt] at *; omega
  · rfl

/-- Step 4 of R68 as integers. -/
theorem decIfMax_toInt (t : Word) : (decIfMax t).toInt = if t.toInt = maxInt then maxInt - 1 else t.toInt := by
  unfold decIfMax
  split
  · rename_i h
    rw [sub32, wrap32_toInt_of_fits (z := 1) (by decide), h, wrap32_toInt_of_fits (by decide)]
  · rfl

/-- Steps 3 to 5 of R68 as integers, the difference already wrapped. -/
theorem drawResult_toInt (a b : Word) :
    (drawResult a b).toInt =
      if (sub32 a b).toInt = maxInt then maxInt - 1
      else if (sub32 a b).toInt < 0 then (sub32 a b).toInt + maxInt else (sub32 a b).toInt := by
  rw [drawResult, addMaxIfNeg_toInt, decIfMax_toInt]
  simp only [maxInt]; generalize (sub32 a b).toInt = d; split_ifs <;> omega

/-- A subtraction whose exact value fits does not wrap. -/
theorem sub32_toInt_of_fits {a b : Word} (h : minInt ≤ a.toInt - b.toInt ∧ a.toInt - b.toInt ≤ maxInt) :
    (sub32 a b).toInt = a.toInt - b.toInt := wrap32_toInt_of_fits h

/-- R64: in-range operands give an in-range result, and nothing wraps. -/
theorem addMaxIfNeg_sub32_inRange {a b : Word} (ha : InRange a) (hb : InRange b) :
    InRange (addMaxIfNeg (sub32 a b)) := by
  simp only [InRange, maxInt] at *
  rw [addMaxIfNeg_toInt, sub32_toInt_of_fits (by simp only [minInt, maxInt]; omega)]
  simp only [maxInt]; split <;> omega

/-- R20 (a): in-range operands give an in-range draw. -/
theorem drawResult_inRange {a b : Word} (ha : InRange a) (hb : InRange b) : InRange (drawResult a b) := by
  simp only [InRange, maxInt] at *
  rw [drawResult_toInt, sub32_toInt_of_fits (by simp only [minInt, maxInt]; omega)]
  simp only [maxInt]; split_ifs <;> omega

/-- Words with the same signed value are the same. -/
theorem word_ext {a b : Word} (h : a.toInt = b.toInt) : a = b := BitVec.eq_of_toInt_eq h

end Sys2Proof.Machine
end

