-- ==== Sys2Proof/Laws/Draw.lean ====
section
/-!
SUPPORT. What `draw()` and a row of draws do (40_state_engine.md R68, R71), said once.
-/

namespace Sys2Proof.Machine

@[simp] theorem draw_cursorA (e : Engine) : (draw e).2.cursorA = stepCursor e.cursorA := rfl
@[simp] theorem draw_cursorB (e : Engine) : (draw e).2.cursorB = stepCursor e.cursorB := rfl

theorem draw_value (e : Engine) :
    (draw e).1 = drawResult (readSlot e.x (stepCursor e.cursorA)) (readSlot e.x (stepCursor e.cursorB)) := rfl

/-- A draw writes one slot, the one at the stepped `cursorA`, and leaves every other slot (R12, R68). -/
theorem readSlot_draw (e : Engine) (j : Fin 56) :
    readSlot (draw e).2.x j = if j = stepCursor e.cursorA then (draw e).1 else readSlot e.x j :=
  readSlot_writeSlot _ _ _ _

@[simp] theorem drawMany_zero (e : Engine) : drawMany 0 e = ([], e) := rfl

theorem drawMany_succ (k : Nat) (e : Engine) :
    drawMany (k + 1) e = ((draw e).1 :: (drawMany k (draw e).2).1, (drawMany k (draw e).2).2) := rfl

@[simp] theorem drawMany_length (k : Nat) (e : Engine) : (drawMany k e).1.length = k := by
  induction k generalizing e with
  | zero => rfl
  | succ k ih => simp [drawMany_succ, ih]

/-- Draws in two groups are the draws in one. -/
theorem drawMany_add (j k : Nat) (e : Engine) :
    drawMany (j + k) e = ((drawMany j e).1 ++ (drawMany k (drawMany j e).2).1, (drawMany k (drawMany j e).2).2) := by
  induction j generalizing e with
  | zero => simp
  | succ j ih => rw [Nat.succ_add, drawMany_succ, ih, drawMany_succ]; rfl

theorem drawMany_one (e : Engine) : drawMany 1 e = ([(draw e).1], (draw e).2) := rfl

/-- The last draw of `k + 1`. -/
theorem drawMany_succ_engine (k : Nat) (e : Engine) :
    (drawMany (k + 1) e).2 = (draw (drawMany k e).2).2 := by
  rw [drawMany_add k 1]; rfl

/-- Draw number `k` (from 0) of a row of draws. -/
theorem drawMany_getElem (n : Nat) (e : Engine) (k : Nat) (h : k < (drawMany n e).1.length) :
    (drawMany n e).1[k] = (draw (drawMany k e).2).1 := by
  induction n generalizing e k with
  | zero => simp at h
  | succ n ih =>
    cases k with
    | zero => rfl
    | succ k => simp only [drawMany_succ, List.getElem_cons_succ]; exact ih _ _ _

/-- Draws keep the slot range invariant (R20 (a)). -/
theorem draw_slotsInRange {e : Engine} (h : SlotsInRange e.x) :
    InRange (draw e).1 ∧ SlotsInRange (draw e).2.x := by
  have hv : InRange (draw e).1 :=
    drawResult_inRange (h _ (stepCursor_ne_zero _)) (h _ (stepCursor_ne_zero _))
  refine ⟨hv, fun i hi => ?_⟩
  rw [readSlot_draw]; split
  · exact hv
  · exact h i hi

theorem drawMany_slotsInRange (k : Nat) {e : Engine} (h : SlotsInRange e.x) : SlotsInRange (drawMany k e).2.x := by
  induction k generalizing e with
  | zero => exact h
  | succ k ih => exact ih (draw_slotsInRange h).2

/-- A draw keeps the cursor lag (R19). -/
theorem draw_cursorLag {e : Engine} (h : CursorLag e) : CursorLag (draw e).2 := by
  simp only [CursorLag, draw_cursorA, draw_cursorB, stepCursor_val] at *
  have := e.cursorA.isLt; have := e.cursorB.isLt; omega

theorem drawMany_cursorLag (k : Nat) {e : Engine} (h : CursorLag e) : CursorLag (drawMany k e).2 := by
  induction k generalizing e with
  | zero => exact h
  | succ k ih => exact ih (draw_cursorLag h)

/-- Engines that agree on the generator draw the same value and agree after it (R21). -/
theorem SameGenerator.draw {e f : Engine} (h : SameGenerator e f) :
    (Machine.draw e).1 = (Machine.draw f).1 ∧ SameGenerator (Machine.draw e).2 (Machine.draw f).2 := by
  obtain ⟨hx, ha, hb⟩ := h
  have hv : (Machine.draw e).1 = (Machine.draw f).1 := by
    rw [draw_value, draw_value, ha, hb, hx _ (stepCursor_ne_zero _), hx _ (stepCursor_ne_zero _)]
  refine ⟨hv, fun i hi => ?_, by simp [ha], by simp [hb]⟩
  rw [readSlot_draw, readSlot_draw, ha, hv, hx i hi]

theorem SameGenerator.drawMany (k : Nat) {e f : Engine} (h : SameGenerator e f) :
    (Machine.drawMany k e).1 = (Machine.drawMany k f).1 ∧
      SameGenerator (Machine.drawMany k e).2 (Machine.drawMany k f).2 := by
  induction k generalizing e f with
  | zero => exact ⟨rfl, h⟩
  | succ k ih =>
    obtain ⟨hv, hg⟩ := h.draw
    obtain ⟨h1, h2⟩ := ih hg
    exact ⟨by rw [drawMany_succ, drawMany_succ, hv, h1], h2⟩

end Sys2Proof.Machine
end

