-- ==== Sys2Proof/Laws/Adapter.lean ====
section
/-!
SUPPORT. What every value function does (41_type_adapter_sample.md R80, R94) and what a fill of one does
(42_type_adapter_fill.md R100), said once.
-/

namespace Sys2Proof.Machine

/-- A record that is a value beat (30_encoding.md R51). -/
abbrev Record.IsVal (r : Record) : Prop := ∃ (w : Nat) (v : BitVec w), r = .val w v

/-- A value function makes `n` draws and its beat is a function of the drawn values alone (R80). -/
def Converts (value : ValueFn) (n : Nat) (conv : List Word → Record) : Prop :=
  (∀ ds, (conv ds).IsVal) ∧ ∀ e, value e = (conv (drawMany n e).1, (drawMany n e).2)

theorem lowBits_converts (w : Nat) : ∃ conv, Converts (lowBits w) 1 conv :=
  ⟨fun ds => .val w ((ds.headD 0).setWidth w), fun _ => ⟨_, _, rfl⟩, fun _ => rfl⟩

theorem twoDraws_converts : ∃ conv, Converts twoDraws 2 conv :=
  ⟨fun ds => .val 64 (ds.getD 1 0 ++ ds.headD 0), fun _ => ⟨_, _, rfl⟩, fun _ => rfl⟩

theorem valueF64_converts : ∃ conv, Converts valueF64 1 conv :=
  ⟨fun ds => .val 64 (bits64 (scaleDraw (ds.headD 0))), fun _ => ⟨_, _, rfl⟩, fun _ => rfl⟩

theorem valueF32With_converts (mode : Rounding) : ∃ conv, Converts (valueF32With mode) 1 conv :=
  ⟨fun ds => .val 32 (bits32 (narrow32 mode (scaleDraw (ds.headD 0)))), fun _ => ⟨_, _, rfl⟩, fun _ => rfl⟩

theorem valueDec_converts : ∃ conv, Converts valueDec 1 conv :=
  ⟨fun ds => .val Config.decWidth (Config.decScale (ds.headD 0)), fun _ => ⟨_, _, rfl⟩, fun _ => rfl⟩

theorem valueRaw_converts (size : Nat) : ∃ conv, Converts (valueRaw size) (rawDraws size) conv :=
  ⟨fun ds => .val (8 * size) (BitVec.ofNat (8 * size) (littleEndian (packBytes size ds))),
    fun _ => ⟨_, _, rfl⟩, fun _ => rfl⟩

/-- A fill of `k` values makes `k * n` draws, and its beats are `k` values, a function of the drawn values alone (R100). -/
theorem fillValues_converts {value : ValueFn} {n : Nat} (h : ∃ conv, Converts value n conv) (k : Nat) :
    ∃ conv : List Word → List Record, (∀ ds, (conv ds).length = k ∧ ∀ r ∈ conv ds, r.IsVal) ∧
      ∀ e, fillValues value k e = (conv (drawMany (k * n) e).1, (drawMany (k * n) e).2) := by
  obtain ⟨c, hc, hv⟩ := h
  induction k with
  | zero => exact ⟨fun _ => [], fun _ => by simp, fun e => by simp [fillValues]⟩
  | succ k ih =>
    obtain ⟨cs, hcs, hvs⟩ := ih
    refine ⟨fun ds => c (ds.take n) :: cs (ds.drop n), fun ds => ⟨by simp [(hcs _).1], ?_⟩, fun e => ?_⟩
    · intro r hr
      rcases List.mem_cons.mp hr with rfl | hr
      · exact hc _
      · exact (hcs _).2 r hr
    · rw [show (k + 1) * n = n + k * n by ring, drawMany_add]
      simp only [fillValues, hv, hvs]
      simp [List.take_left', List.drop_left']

end Sys2Proof.Machine
end

