-- ==== Sys2Proof/Laws/Decode.lean ====
section
/-!
SUPPORT. The fields of a command word put together and taken apart (30_encoding.md R41, R54).
-/

namespace Sys2Proof

@[simp] theorem opcField_mkCommand (o t : BitVec 8) (z : BitVec 16) (m : BitVec 32) :
    opcField (mkCommand o t z m) = o := by
  apply BitVec.eq_of_getLsbD_eq
  intro i hi
  have h0 : ¬ 56 + i < 32 := by omega
  have h1 : ¬ 56 + i - 32 < 16 := by omega
  have h2 : ¬ 56 + i - 32 - 16 < 8 := by omega
  have h3 : 56 + i - 32 - 16 - 8 = i := by omega
  simp only [opcField, mkCommand, BitVec.getLsbD_extractLsb', BitVec.getLsbD_append, h0, h1, h2, h3, hi, decide_true,
    Bool.true_and, if_false]

@[simp] theorem typeField_mkCommand (o t : BitVec 8) (z : BitVec 16) (m : BitVec 32) :
    typeField (mkCommand o t z m) = t := by
  apply BitVec.eq_of_getLsbD_eq
  intro i hi
  have h0 : ¬ 48 + i < 32 := by omega
  have h1 : ¬ 48 + i - 32 < 16 := by omega
  have h3 : 48 + i - 32 - 16 = i := by omega
  simp only [typeField, mkCommand, BitVec.getLsbD_extractLsb', BitVec.getLsbD_append, h0, h1, h3, hi, decide_true,
    Bool.true_and, if_false, if_true]

@[simp] theorem sizeField_mkCommand (o t : BitVec 8) (z : BitVec 16) (m : BitVec 32) :
    sizeField (mkCommand o t z m) = z := by
  apply BitVec.eq_of_getLsbD_eq
  intro i hi
  have h0 : ¬ 32 + i < 32 := by omega
  have h3 : 32 + i - 32 = i := by omega
  simp only [sizeField, mkCommand, BitVec.getLsbD_extractLsb', BitVec.getLsbD_append, h0, h3, hi, decide_true,
    Bool.true_and, if_false, if_true]

@[simp] theorem immField_mkCommand (o t : BitVec 8) (z : BitVec 16) (m : BitVec 32) :
    immField (mkCommand o t z m) = m := by
  apply BitVec.eq_of_getLsbD_eq
  intro i hi
  simp only [immField, mkCommand, BitVec.getLsbD_extractLsb', BitVec.getLsbD_append, Nat.zero_add, hi, decide_true,
    Bool.true_and, if_true]

/-- Every word is its four fields put together (R41). -/
theorem mkCommand_fields (w : Command) :
    mkCommand (opcField w) (typeField w) (sizeField w) (immField w) = w := by
  apply BitVec.eq_of_getLsbD_eq
  intro i hi
  simp only [mkCommand, opcField, typeField, sizeField, immField, BitVec.getLsbD_append, BitVec.getLsbD_extractLsb']
  split
  · rename_i h; simp [h]
  · split
    · rename_i h1 h2; rw [show 32 + (i - 32) = i by omega]; simp [h2]
    · split
      · rename_i h1 h2 h3; rw [show 48 + (i - 32 - 16) = i by omega]; simp [h3]
      · rename_i h1 h2 h3
        rw [show 56 + (i - 32 - 16 - 8) = i by omega]; simp; omega

/-- Decoding a word built from fields is decoding the fields. -/
@[simp] theorem decodeWith_mkCommand (dec : Bool) (o t : BitVec 8) (z : BitVec 16) (m : BitVec 32) :
    decodeWith dec (mkCommand o t z m) = decodeFields dec o t z m := by
  simp [decodeWith]

theorem decode_mkCommand (o t : BitVec 8) (z : BitVec 16) (m : BitVec 32) :
    decode (mkCommand o t z m) = decodeFields Config.decSupported o t z m := decodeWith_mkCommand _ _ _ _ _

/-- A field of 32 bits read back as the count written into it (R44). -/
theorem toNat_ofNat_count {n : Nat} (h : CountOk n) : (BitVec.ofNat 32 n).toNat = n := by
  rw [BitVec.toNat_ofNat]; simp only [CountOk] at h; omega

/-- A field of 16 bits read back as the size written into it (R44). -/
theorem toNat_ofNat_size {n : Nat} (h : SizeOk n) : (BitVec.ofNat 16 n).toNat = n := by
  rw [BitVec.toNat_ofNat]; simp only [SizeOk] at h; omega

/-- `sint32(IMM)` of the field a seed is written into is the seed (R44). -/
theorem toInt_ofInt_seed {z : Int} (h : SeedOk z) : (BitVec.ofInt 32 z).toInt = z := by
  rw [BitVec.toInt_ofInt, Int.bmod_def]; simp only [SeedOk] at h; omega

end Sys2Proof
end

