-- ==== Sys2Proof/Laws/Exec.lean ====
section
/-!
SUPPORT. What a command, and a step, can do, said once: every invariant follows from these.
-/

namespace Sys2Proof.Machine

/-- A command that is `ifSeeded` over `n` draws whose beats are a function of the drawn values. -/
def DrawsThenEmits (i : Instr) : Prop :=
  ∃ (n : Nat) (conv : List Word → List Record), (∀ ds, ∀ r ∈ conv ds, r.IsVal) ∧
    ∀ s, exec i s = .next (ifSeeded s (done .ok
      (emit (conv (drawMany n s.engine).1) { s with engine := (drawMany n s.engine).2 })))

theorem sampleWith_draws {value : ValueFn} {n : Nat} (h : ∃ conv, Converts value n conv) :
    ∃ conv : List Word → List Record, (∀ ds, ∀ r ∈ conv ds, r.IsVal) ∧ ∀ s, sampleWith value s =
      ifSeeded s (done .ok (emit (conv (drawMany n s.engine).1) { s with engine := (drawMany n s.engine).2 })) := by
  obtain ⟨c, hc, hv⟩ := h
  exact ⟨fun ds => [c ds], fun ds r hr => by rw [List.mem_singleton.mp hr]; exact hc ds,
    fun s => by rw [sampleWith, hv]⟩

theorem fillWith_draws {value : ValueFn} {n : Nat} (h : ∃ conv, Converts value n conv) (k : Nat) :
    ∃ conv : List Word → List Record, (∀ ds, ∀ r ∈ conv ds, r.IsVal) ∧ ∀ s, fillWith value k s =
      ifSeeded s (done .ok
        (emit (conv (drawMany (k * n) s.engine).1) { s with engine := (drawMany (k * n) s.engine).2 })) := by
  obtain ⟨cs, hcs, hvs⟩ := fillValues_converts h k
  exact ⟨cs, fun ds => (hcs ds).2, fun s => by rw [fillWith, hvs]⟩

theorem DrawsThenEmits.of_sample {i : Instr} {value : ValueFn} {n : Nat} (h : ∃ conv, Converts value n conv)
    (hi : ∀ s, exec i s = .next (sampleWith value s)) : DrawsThenEmits i := by
  obtain ⟨c, hc, hv⟩ := sampleWith_draws h
  exact ⟨n, c, hc, fun s => by rw [hi, hv]⟩

theorem DrawsThenEmits.of_fill {i : Instr} {value : ValueFn} {n : Nat} (h : ∃ conv, Converts value n conv) (k : Nat)
    (hi : ∀ s, exec i s = .next (fillWith value k s)) : DrawsThenEmits i := by
  obtain ⟨c, hc, hv⟩ := fillWith_draws h k
  exact ⟨k * n, c, hc, fun s => by rw [hi, hv]⟩

/-- What a command can do: SEED constructs; the decimal commands raise UnsupportedType; every other command checks
`seeded`, makes a fixed number of draws and emits a function of the drawn values. -/
theorem exec_cases (i : Instr) :
    (∃ z, i = .seed z) ∨ (∀ s, exec i s = .next (raise .unsupportedType s)) ∨ DrawsThenEmits i := by
  cases i with
  | seed z => exact .inl ⟨z, rfl⟩
  | draw =>
    refine .inr (.inr ⟨1, fun ds => [.val 32 (ds.headD 0)], fun ds r hr => ?_, fun s => rfl⟩)
    exact ⟨_, _, List.mem_singleton.mp hr⟩
  | sampleI8 => exact .inr (.inr (.of_sample (lowBits_converts 8) fun _ => rfl))
  | sampleI16 => exact .inr (.inr (.of_sample (lowBits_converts 16) fun _ => rfl))
  | sampleI32 => exact .inr (.inr (.of_sample (lowBits_converts 32) fun _ => rfl))
  | sampleI64 => exact .inr (.inr (.of_sample twoDraws_converts fun _ => rfl))
  | sampleU8 => exact .inr (.inr (.of_sample (lowBits_converts 8) fun _ => rfl))
  | sampleU16 => exact .inr (.inr (.of_sample (lowBits_converts 16) fun _ => rfl))
  | sampleU32 => exact .inr (.inr (.of_sample (lowBits_converts 32) fun _ => rfl))
  | sampleU64 => exact .inr (.inr (.of_sample twoDraws_converts fun _ => rfl))
  | sampleF32 => exact .inr (.inr (.of_sample (valueF32With_converts _) fun _ => rfl))
  | sampleF64 => exact .inr (.inr (.of_sample valueF64_converts fun _ => rfl))
  | sampleDec => exact .inr (.inl fun _ => rfl)
  | sampleRaw size => exact .inr (.inr (.of_sample (valueRaw_converts size) fun _ => rfl))
  | fillI8 n => exact .inr (.inr (.of_fill (lowBits_converts 8) n fun _ => rfl))
  | fillI16 n => exact .inr (.inr (.of_fill (lowBits_converts 16) n fun _ => rfl))
  | fillI32 n => exact .inr (.inr (.of_fill (lowBits_converts 32) n fun _ => rfl))
  | fillI64 n => exact .inr (.inr (.of_fill twoDraws_converts n fun _ => rfl))
  | fillU8 n => exact .inr (.inr (.of_fill (lowBits_converts 8) n fun _ => rfl))
  | fillU16 n => exact .inr (.inr (.of_fill (lowBits_converts 16) n fun _ => rfl))
  | fillU32 n => exact .inr (.inr (.of_fill (lowBits_converts 32) n fun _ => rfl))
  | fillU64 n => exact .inr (.inr (.of_fill twoDraws_converts n fun _ => rfl))
  | fillF32 n => exact .inr (.inr (.of_fill (valueF32With_converts _) n fun _ => rfl))
  | fillF64 n => exact .inr (.inr (.of_fill valueF64_converts n fun _ => rfl))
  | fillDec n => exact .inr (.inl fun _ => rfl)
  | fillRaw size n => exact .inr (.inr (.of_fill (valueRaw_converts size) n fun _ => rfl))

/-- SEED as an equation. -/
theorem exec_seed (z : Int) (s : State) :
    exec (.seed z) s = .next (done .ok (setSeeded { s with engine := seedEngine z s.engine })) := rfl

/-- A step on a presented word that decodes. -/
theorem step_of_decode_ok {s : State} {w : Command} {rest : List HostEvent} {i : Instr}
    (hc : s.cmd = .command w :: rest) (hd : decode w = .ok i) : step s = exec i { s with cmd := rest } := by
  simp [step, hc, serve, runCommand, hd]

/-- A step on a presented word that does not decode. -/
theorem step_of_decode_error {s : State} {w : Command} {rest : List HostEvent} {k : ErrorKind}
    (hc : s.cmd = .command w :: rest) (hd : decode w = .error k) : step s = .next (raise k { s with cmd := rest }) := by
  simp [step, hc, serve, runCommand, hd]

/-- What running a word can do. -/
theorem runCommand_cases (w : Command) :
    (∃ z, ∀ s, runCommand w s = exec (.seed z) s) ∨ (∃ k, ∀ s, runCommand w s = .next (raise k s)) ∨
      ∃ (n : Nat) (conv : List Word → List Record), (∀ ds, ∀ r ∈ conv ds, r.IsVal) ∧
        ∀ s, runCommand w s = .next (ifSeeded s (done .ok
          (emit (conv (drawMany n s.engine).1) { s with engine := (drawMany n s.engine).2 }))) := by
  unfold runCommand
  cases decode w with
  | error k => exact .inr (.inl ⟨k, fun _ => rfl⟩)
  | ok i =>
    rcases exec_cases i with ⟨z, rfl⟩ | h | h
    · exact .inl ⟨z, fun _ => rfl⟩
    · exact .inr (.inl ⟨_, h⟩)
    · exact .inr (.inr h)

/-- Every word is executed to completion (R56, R125). -/
theorem runCommand_next (w : Command) (s : State) : ∃ t, runCommand w s = .next t := by
  rcases runCommand_cases w with ⟨z, h⟩ | ⟨k, h⟩ | ⟨n, c, _, h⟩ <;> exact ⟨_, h s⟩

end Sys2Proof.Machine
end

