-- ==== Sys2Proof/Laws/Float.lean ====
section
/-!
SUPPORT. What rounding (00_scope.md R8) does, said once, in integers: narrowing toward zero, rounding to nearest with ties
to even, and the pattern of a normal number.
-/

namespace Sys2Proof.Machine

/-- The bit length of a magnitude between two powers of two. -/
theorem bitLength_eq {p m : Nat} (hp : 1 ≤ p) (hl : 2 ^ (p - 1) ≤ m) (hu : m < 2 ^ p) : bitLength m = p := by
  have h0 : m ≠ 0 := by have := Nat.two_pow_pos (p - 1); omega
  have h1 := (Nat.le_log2 h0).mpr hl
  have h2 := (Nat.log2_lt h0).mpr hu
  simp only [bitLength, h0, if_false]; omega

/-- The bits cut off by rounding to `p` bits, and what is left. -/
theorem bitLength_split {p P : Nat} (hp : 1 ≤ p) (hP : 2 ^ (p - 1) ≤ P) :
    ∃ sh, bitLength P - p = sh ∧ 2 ^ (p - 1) * 2 ^ sh ≤ P ∧ P < 2 ^ p * 2 ^ sh := by
  have h0 : P ≠ 0 := by have := Nat.two_pow_pos (p - 1); omega
  have h1 := (Nat.le_log2 h0).mpr hP
  have hl := Nat.log2_self_le h0
  have hu : P < 2 ^ (P.log2 + 1) := Nat.lt_log2_self
  refine ⟨_, rfl, ?_, ?_⟩ <;> simp only [bitLength, h0, if_false, ← pow_add]
  · rwa [show p - 1 + (P.log2 + 1 - p) = P.log2 by omega]
  · rwa [show p + (P.log2 + 1 - p) = P.log2 + 1 by omega]

/-- Narrowing toward zero keeps the top `p` bits of the magnitude. -/
theorem roundTo_rtz {p : Nat} {y : Dyadic} (hp : 1 ≤ p) (hP : 2 ^ (p - 1) ≤ y.mag) :
    ∃ m k : Nat, roundTo p .rtz y = { y with mag := m, exp := y.exp + k } ∧ 2 ^ (p - 1) ≤ m ∧ m < 2 ^ p ∧
      m * 2 ^ k ≤ y.mag ∧ y.mag < (m + 1) * 2 ^ k := by
  obtain ⟨sh, hsh, hl, hu⟩ := bitLength_split hp hP
  have hpos := Nat.two_pow_pos sh
  have hq : y.mag / 2 ^ sh < 2 ^ p := (Nat.div_lt_iff_lt_mul hpos).mpr hu
  refine ⟨y.mag / 2 ^ sh, sh, ?_, (Nat.le_div_iff_mul_le hpos).mpr hl, hq, Nat.div_mul_le_self _ _, ?_⟩
  · simp [roundTo, hsh, roundsUp, hq.ne]
  · rw [mul_comm]; exact Nat.lt_mul_div_succ _ hpos

/-- Rounding to nearest moves the magnitude by at most half a unit of the last of its `p` bits, and by exactly half a unit
only to an even magnitude. The power of two is that unit, or twice it where the magnitude was carried to the next one. -/
theorem roundTo_rne {p : Nat} {y : Dyadic} (hp : 2 ≤ p) (hP : 2 ^ (p - 1) ≤ y.mag) :
    ∃ m k sh : Nat, roundTo p .rne y = { y with mag := m, exp := y.exp + k } ∧ 2 ^ (p - 1) ≤ m ∧ m < 2 ^ p ∧
      (k = sh ∨ k = sh + 1 ∧ m = 2 ^ (p - 1)) ∧ 2 ^ (p - 1) * 2 ^ sh ≤ y.mag ∧ y.mag < 2 ^ p * 2 ^ sh ∧
      2 * |(y.mag : Int) - m * 2 ^ k| ≤ 2 ^ sh ∧ (2 * |(y.mag : Int) - m * 2 ^ k| = 2 ^ sh → m % 2 = 0) := by
  obtain ⟨sh, hsh, hl, hu⟩ := bitLength_split (by omega) hP
  have hpos := Nat.two_pow_pos sh
  have hq : y.mag / 2 ^ sh < 2 ^ p := (Nat.div_lt_iff_lt_mul hpos).mpr hu
  have hq' : 2 ^ (p - 1) ≤ y.mag / 2 ^ sh := (Nat.le_div_iff_mul_le hpos).mpr hl
  have hr := Nat.mod_lt y.mag hpos
  have hsplit : (y.mag : Int) = (y.mag / 2 ^ sh : Nat) * 2 ^ sh + (y.mag % 2 ^ sh : Nat) := by
    have := Nat.div_add_mod y.mag (2 ^ sh)
    rw [mul_comm]; exact_mod_cast this.symm
  have hpow : 2 ^ p = 2 * 2 ^ (p - 1) := by rw [← pow_succ']; congr 1; omega
  have heven : (2 ^ (p - 1)) % 2 = 0 := by
    rw [show p - 1 = p - 2 + 1 by omega, pow_succ]; omega
  generalize hqe : y.mag / 2 ^ sh = q at *
  generalize hre : y.mag % 2 ^ sh = r at *
  have hcast : ((2 ^ sh : Nat) : Int) = 2 ^ sh := by push_cast; rfl
  rw [hsplit]
  by_cases hup : roundsUp .rne q r sh = true
  · have hup' : 2 ^ sh < 2 * r ∨ 2 * r = 2 ^ sh ∧ q % 2 = 1 := by simpa [roundsUp] using hup
    have hge : 2 ^ sh ≤ 2 * r := by omega
    have hd (X : Int) (hX : X = (q + 1) * 2 ^ sh) :
        |(q : Int) * 2 ^ sh + r - X| = 2 ^ sh - r := by
      rw [hX, show (q : Int) * 2 ^ sh + r - (q + 1) * 2 ^ sh = -(2 ^ sh - r) by ring, abs_neg, abs_of_nonneg]
      rw [← hcast]; omega
    by_cases hc : q + 1 = 2 ^ p
    · refine ⟨2 ^ (p - 1), sh + 1, sh, ?_, le_rfl, by omega, .inr ⟨rfl, rfl⟩, hl, hu, ?_, fun _ => heven⟩
      · simp [roundTo, hsh, hqe, hre, hup, hc]; ring
      · rw [hd _ (by
          have : (q : Int) + 1 = 2 * 2 ^ (p - 1) := by
            have h := hc.trans hpow; exact_mod_cast h
          rw [this]; push_cast; ring)]
        rw [← hcast]; omega
    · refine ⟨q + 1, sh, sh, ?_, by omega, by omega, .inl rfl, hl, hu, ?_, ?_⟩
      · simp [roundTo, hsh, hqe, hre, hup, hc]
      · rw [hd _ (by push_cast; ring), ← hcast]; omega
      · rw [hd _ (by push_cast; ring), ← hcast]; omega
  · have hup' : ¬ (2 ^ sh < 2 * r ∨ 2 * r = 2 ^ sh ∧ q % 2 = 1) := by simpa [roundsUp] using hup
    have hd : |(q : Int) * 2 ^ sh + r - q * 2 ^ sh| = r := by
      rw [add_sub_cancel_left, abs_of_nonneg (by omega)]
    refine ⟨q, sh, sh, ?_, hq', hq, .inl rfl, hl, hu, ?_, ?_⟩
    · simp [roundTo, hsh, hqe, hre, hup, hq.ne]
    · rw [hd, ← hcast]; omega
    · rw [hd, ← hcast]; omega

/-- The pattern of a normal number: sign, biased exponent, and the fraction without the leading 1. -/
theorem ieeePattern_normal {p m : Nat} (expBits bias : Nat) (neg : Bool) (e : Int) (hp : 1 ≤ p)
    (hl : 2 ^ (p - 1) ≤ m) (hu : m < 2 ^ p) :
    ieeePattern p expBits bias ⟨neg, m, e⟩ =
      (if neg then 2 ^ (p - 1 + expBits) else 0) + (e + p - 1 + bias).toNat * 2 ^ (p - 1) + (m - 2 ^ (p - 1)) := by
  have h0 : m ≠ 0 := by have := Nat.two_pow_pos (p - 1); omega
  simp [ieeePattern, h0, bitLength_eq hp hl hu]

/-- A draw of 0 rounds to +0. -/
theorem scaleDraw_zero : scaleDraw 0#32 = ⟨false, 0, -83⟩ := by decide

end Sys2Proof.Machine
end

