-- ==== Sys2Proof/Laws/PerInstr.lean ====
section
/-!
SUPPORT. Statements made for every instruction, one lemma per constructor. Family `CommandFields`: the OPC and TYPE
fields of a command's word are those of 30_encoding.md R42 and R43, and the fields it does not use are 0 (R45, R54).
-/

namespace Sys2Proof.Laws.CommandFields

/-- The OPC value of each command (R42). -/
def opc : Instr → BitVec 8
  | .seed _ => 0x01#8
  | .draw => 0x02#8
  | .sampleI8 => 0x03#8
  | .sampleI16 => 0x03#8
  | .sampleI32 => 0x03#8
  | .sampleI64 => 0x03#8
  | .sampleU8 => 0x03#8
  | .sampleU16 => 0x03#8
  | .sampleU32 => 0x03#8
  | .sampleU64 => 0x03#8
  | .sampleF32 => 0x03#8
  | .sampleF64 => 0x03#8
  | .sampleDec => 0x03#8
  | .sampleRaw _ => 0x03#8
  | .fillI8 _ => 0x04#8
  | .fillI16 _ => 0x04#8
  | .fillI32 _ => 0x04#8
  | .fillI64 _ => 0x04#8
  | .fillU8 _ => 0x04#8
  | .fillU16 _ => 0x04#8
  | .fillU32 _ => 0x04#8
  | .fillU64 _ => 0x04#8
  | .fillF32 _ => 0x04#8
  | .fillF64 _ => 0x04#8
  | .fillDec _ => 0x04#8
  | .fillRaw _ _ => 0x04#8

/-- The TYPE value of each command (R43); 0 where the command has none (R45). -/
def type : Instr → BitVec 8
  | .seed _ => 0x00#8
  | .draw => 0x00#8
  | .sampleI8 => 0x00#8
  | .sampleI16 => 0x01#8
  | .sampleI32 => 0x02#8
  | .sampleI64 => 0x03#8
  | .sampleU8 => 0x04#8
  | .sampleU16 => 0x05#8
  | .sampleU32 => 0x06#8
  | .sampleU64 => 0x07#8
  | .sampleF32 => 0x08#8
  | .sampleF64 => 0x09#8
  | .sampleDec => 0x0A#8
  | .sampleRaw _ => 0x0B#8
  | .fillI8 _ => 0x00#8
  | .fillI16 _ => 0x01#8
  | .fillI32 _ => 0x02#8
  | .fillI64 _ => 0x03#8
  | .fillU8 _ => 0x04#8
  | .fillU16 _ => 0x05#8
  | .fillU32 _ => 0x06#8
  | .fillU64 _ => 0x07#8
  | .fillF32 _ => 0x08#8
  | .fillF64 _ => 0x09#8
  | .fillDec _ => 0x0A#8
  | .fillRaw _ _ => 0x0B#8

/-- Whether the command uses SIZE (R45). -/
def usesSize : Instr → Bool
  | .sampleRaw _ => true
  | .fillRaw _ _ => true
  | _ => false

/-- Whether the command uses IMM (R45). -/
def usesImm : Instr → Bool
  | .seed _ => true
  | .fillI8 _ => true
  | .fillI16 _ => true
  | .fillI32 _ => true
  | .fillI64 _ => true
  | .fillU8 _ => true
  | .fillU16 _ => true
  | .fillU32 _ => true
  | .fillU64 _ => true
  | .fillF32 _ => true
  | .fillF64 _ => true
  | .fillDec _ => true
  | .fillRaw _ _ => true
  | _ => false

/-- The fields of the word of `i`. -/
def Statement (i : Instr) : Prop :=
  opcField (encode i) = opc i ∧ typeField (encode i) = type i ∧
    (usesSize i = false → sizeField (encode i) = 0#16) ∧ (usesImm i = false → immField (encode i) = 0#32)

theorem seed (z : Int) : Statement (.seed z) := by
  simp [Statement, encode, opc, type, usesSize, usesImm]

theorem draw : Statement (.draw) := by
  simp [Statement, encode, opc, type, usesSize, usesImm]

theorem sampleI8 : Statement (.sampleI8) := by
  simp [Statement, encode, opc, type, usesSize, usesImm]

theorem sampleI16 : Statement (.sampleI16) := by
  simp [Statement, encode, opc, type, usesSize, usesImm]

theorem sampleI32 : Statement (.sampleI32) := by
  simp [Statement, encode, opc, type, usesSize, usesImm]

theorem sampleI64 : Statement (.sampleI64) := by
  simp [Statement, encode, opc, type, usesSize, usesImm]

theorem sampleU8 : Statement (.sampleU8) := by
  simp [Statement, encode, opc, type, usesSize, usesImm]

theorem sampleU16 : Statement (.sampleU16) := by
  simp [Statement, encode, opc, type, usesSize, usesImm]

theorem sampleU32 : Statement (.sampleU32) := by
  simp [Statement, encode, opc, type, usesSize, usesImm]

theorem sampleU64 : Statement (.sampleU64) := by
  simp [Statement, encode, opc, type, usesSize, usesImm]

theorem sampleF32 : Statement (.sampleF32) := by
  simp [Statement, encode, opc, type, usesSize, usesImm]

theorem sampleF64 : Statement (.sampleF64) := by
  simp [Statement, encode, opc, type, usesSize, usesImm]

theorem sampleDec : Statement (.sampleDec) := by
  simp [Statement, encode, opc, type, usesSize, usesImm]

theorem sampleRaw (size : Nat) : Statement (.sampleRaw size) := by
  simp [Statement, encode, opc, type, usesSize, usesImm]

theorem fillI8 (n : Nat) : Statement (.fillI8 n) := by
  simp [Statement, encode, opc, type, usesSize, usesImm]

theorem fillI16 (n : Nat) : Statement (.fillI16 n) := by
  simp [Statement, encode, opc, type, usesSize, usesImm]

theorem fillI32 (n : Nat) : Statement (.fillI32 n) := by
  simp [Statement, encode, opc, type, usesSize, usesImm]

theorem fillI64 (n : Nat) : Statement (.fillI64 n) := by
  simp [Statement, encode, opc, type, usesSize, usesImm]

theorem fillU8 (n : Nat) : Statement (.fillU8 n) := by
  simp [Statement, encode, opc, type, usesSize, usesImm]

theorem fillU16 (n : Nat) : Statement (.fillU16 n) := by
  simp [Statement, encode, opc, type, usesSize, usesImm]

theorem fillU32 (n : Nat) : Statement (.fillU32 n) := by
  simp [Statement, encode, opc, type, usesSize, usesImm]

theorem fillU64 (n : Nat) : Statement (.fillU64 n) := by
  simp [Statement, encode, opc, type, usesSize, usesImm]

theorem fillF32 (n : Nat) : Statement (.fillF32 n) := by
  simp [Statement, encode, opc, type, usesSize, usesImm]

theorem fillF64 (n : Nat) : Statement (.fillF64 n) := by
  simp [Statement, encode, opc, type, usesSize, usesImm]

theorem fillDec (n : Nat) : Statement (.fillDec n) := by
  simp [Statement, encode, opc, type, usesSize, usesImm]

theorem fillRaw (size n : Nat) : Statement (.fillRaw size n) := by
  simp [Statement, encode, opc, type, usesSize, usesImm]

end Sys2Proof.Laws.CommandFields
end

