-- ==== Sys2Proof/Laws/Seed.lean ====
section
/-!
SUPPORT. What the steps of SEED leave in each slot (40_state_engine.md R62 to R64), said once.
-/

namespace Sys2Proof.Machine

@[simp] theorem seedEngine_x (seed : Int) (e : Engine) : (seedEngine seed e).x = mixPasses 4 (seedFill seed e.x) := by
  unfold seedEngine; rfl

/-- R65. -/
@[simp] theorem seedEngine_cursorA (seed : Int) (e : Engine) : (seedEngine seed e).cursorA = 0 := by
  unfold seedEngine; rfl

/-- R65. -/
@[simp] theorem seedEngine_cursorB (seed : Int) (e : Engine) : (seedEngine seed e).cursorB = 21 := by
  unfold seedEngine; rfl

theorem nextWalkIndex_val (ii : Fin 55) : (nextWalkIndex ii).val = (ii.val + 21) % 55 := by
  simp only [nextWalkIndex]; have := ii.isLt; split <;> omega

/-- The values the walk stores, in order (R63): each is the one before the last less the last, adjusted. -/
def walkSeq (mj mk : Word) : Nat → Word
  | 0 => mj
  | 1 => mk
  | n + 2 => addMaxIfNeg (sub32 (walkSeq mj mk n) (walkSeq mj mk (n + 1)))

theorem walkSeq_shift (mj mk : Word) (n : Nat) :
    walkSeq mj mk (n + 1) = walkSeq mk (addMaxIfNeg (sub32 mj mk)) n ∧
      walkSeq mj mk (n + 2) = walkSeq mk (addMaxIfNeg (sub32 mj mk)) (n + 1) := by
  induction n with
  | zero => exact ⟨rfl, rfl⟩
  | succ n ih => exact ⟨ih.2, by rw [walkSeq, ih.1, ih.2, walkSeq]⟩

/-- The walk leaves every slot it does not visit. -/
theorem readSlot_walkFill_of_unvisited (steps : Nat) (ii : Fin 55) (mj mk : Word) (x : Vector Word 56) (j : Fin 56)
    (h : ∀ k, 1 ≤ k → k ≤ steps → (ii.val + 21 * k) % 55 ≠ j.val) :
    readSlot (walkFill steps ii mj mk x) j = readSlot x j := by
  induction steps generalizing ii mj mk x with
  | zero => rfl
  | succ n ih =>
    rw [walkFill, ih]
    · refine readSlot_writeSlot_of_ne _ _ fun e => h 1 (by omega) (by omega) ?_
      rw [e]; simp [nextWalkIndex_val]
    · intro k h1 h2
      have := h (k + 1) (by omega) (by omega)
      rw [nextWalkIndex_val]; omega

/-- R63 (a): iteration `k` of the walk stores its value in slot `(ii + 21 * k) mod 55`, and nothing overwrites it. -/
theorem readSlot_walkFill (steps : Nat) (hs : steps ≤ 54) (ii : Fin 55) (mj mk : Word) (x : Vector Word 56)
    (k : Nat) (h1 : 1 ≤ k) (h2 : k ≤ steps) :
    readSlot (walkFill steps ii mj mk x) ⟨(ii.val + 21 * k) % 55, by omega⟩ = walkSeq mj mk k := by
  induction steps generalizing ii mj mk x k with
  | zero => omega
  | succ n ih =>
    rw [walkFill]
    match k, h1 with
    | 1, _ =>
      rw [readSlot_walkFill_of_unvisited]
      · rw [readSlot_writeSlot, if_pos (Fin.ext (by simp [nextWalkIndex_val]))]; rfl
      · intro m h3 h4; simp only [nextWalkIndex_val]; omega
    | k + 2, _ =>
      rw [(walkSeq_shift mj mk k).2, ← ih (by omega) (nextWalkIndex ii) mk _ (writeSlot x (nextWalkIndex ii).castSucc mk)
        (k + 1) (by omega) (by omega)]
      congr 1
      apply Fin.ext
      simp only [nextWalkIndex_val]; omega

/-- After steps 2 and 3, slot 55 holds `mj` (R62). -/
theorem readSlot_seedFill_55 (seed : Int) (x : Vector Word 56) : readSlot (seedFill seed x) 55 = seedStart seed := by
  rw [seedFill, readSlot_walkFill_of_unvisited]
  · simp
  · intro k _ _ h
    have e : ((55 : Fin 56) : Nat) = 55 := rfl
    rw [e] at h; omega

/-- After steps 2 and 3, slot `21 * k mod 55` holds the walk's value number `k` (R63 (a)). -/
theorem readSlot_seedFill (seed : Int) (x : Vector Word 56) (k : Nat) (h1 : 1 ≤ k) (h2 : k ≤ 54) :
    readSlot (seedFill seed x) ⟨(21 * k) % 55, by omega⟩ = walkSeq (seedStart seed) (wrap32 1) k := by
  have := readSlot_walkFill 54 (by omega) 0 (seedStart seed) (wrap32 1) (writeSlot x 55 (seedStart seed)) k h1 h2
  simpa [seedFill] using this

/-- SEED steps 2 and 3 leave slot 0 (R11). -/
theorem readSlot_seedFill_zero (seed : Int) (x : Vector Word 56) : readSlot (seedFill seed x) 0 = readSlot x 0 := by
  rw [seedFill, readSlot_walkFill_of_unvisited]
  · exact readSlot_writeSlot_of_ne _ _ (by decide)
  · intro k h1 h2 h
    have e : ((0 : Fin 56) : Nat) = 0 := rfl
    have e' : ((0 : Fin 55) : Nat) = 0 := rfl
    rw [e, e'] at h; omega

/-- Every used slot is slot 55 or one that the walk visits (R63 (a)). -/
theorem slot_visited (i : Fin 56) (h0 : i ≠ 0) (h55 : i ≠ 55) :
    ∃ k, ∃ _ : 1 ≤ k, ∃ _ : k ≤ 54, i = ⟨(21 * k) % 55, by omega⟩ := by
  have h1 : i.val ≠ 0 := fun e => h0 (Fin.ext e)
  have h2 : i.val ≠ 55 := fun e => h55 (Fin.ext e)
  exact ⟨(21 * i.val) % 55, by omega, by omega, Fin.ext (by have := i.isLt; simp only; omega)⟩

/-- A mixing step writes one slot. -/
theorem readSlot_mixStep (x : Vector Word 56) (i j : Fin 56) :
    readSlot (mixStep x i) j =
      if j = i then addMaxIfNeg (sub32 (readSlot x i) (readSlot x (mixPartner i))) else readSlot x j :=
  readSlot_writeSlot _ _ _ _

/-- The first `m` steps of a pass leave slot 0 and the slots above `m`. -/
theorem readSlot_mixSteps_of_above (m : Nat) (hm : m ≤ 55) (x : Vector Word 56) (j : Fin 56) (h : j = 0 ∨ m < j.val) :
    readSlot (mixSteps m x) j = readSlot x j := by
  induction m with
  | zero => rfl
  | succ m ih =>
    have hv : (Fin.ofNat 56 (m + 1)).val = m + 1 := by simp [Fin.ofNat]; omega
    rw [mixSteps, readSlot_mixStep, if_neg, ih (by omega) (by omega)]
    intro e; rw [e, hv] at h
    rcases h with h | h
    · have := congrArg Fin.val h; rw [hv] at this; simp at this
    · omega

/-- Later steps of the same pass leave a slot already mixed. -/
theorem readSlot_mixSteps_stable (m d : Nat) (hm : m + d ≤ 55) (x : Vector Word 56) (j : Fin 56) (h : j.val ≤ m) :
    readSlot (mixSteps (m + d) x) j = readSlot (mixSteps m x) j := by
  induction d with
  | zero => rfl
  | succ d ih =>
    have hv : (Fin.ofNat 56 (m + d + 1)).val = m + d + 1 := by simp [Fin.ofNat]; omega
    rw [← Nat.add_assoc, mixSteps, readSlot_mixStep, if_neg, ih (by omega)]
    intro e; rw [e, hv] at h; omega

/-- A pass leaves slot 0 (R11). -/
theorem readSlot_mixPass_zero (x : Vector Word 56) : readSlot (mixPass x) 0 = readSlot x 0 :=
  readSlot_mixSteps_of_above 55 (by omega) x 0 (.inl rfl)

/-- R64: up to slot 24 the partner `x[i + 31]` still holds the value before the pass. -/
theorem readSlot_mixPass_low (x : Vector Word 56) (i : Fin 56) (h1 : 1 ≤ i.val) (h2 : i.val ≤ 24) :
    readSlot (mixPass x) i =
      addMaxIfNeg (sub32 (readSlot x i) (readSlot x ⟨i.val + 31, by omega⟩)) := by
  obtain ⟨m, hm⟩ : ∃ m, i.val = m + 1 := ⟨i.val - 1, by omega⟩
  have hi : Fin.ofNat 56 (m + 1) = i := Fin.ext (by simp [Fin.ofNat]; omega)
  have hp : mixPartner i = ⟨i.val + 31, by omega⟩ := Fin.ext (by simp [mixPartner]; omega)
  rw [mixPass, show 55 = (m + 1) + (54 - m) by omega, readSlot_mixSteps_stable _ _ (by omega) _ _ (by omega),
    mixSteps, hi, readSlot_mixStep, if_pos rfl, hp,
    readSlot_mixSteps_of_above m (by omega) _ _ (.inr (by omega)),
    readSlot_mixSteps_of_above m (by omega) _ _ (.inr (by simp only; omega))]

/-- R64: from slot 25 on the partner `x[i - 24]` has already been updated in the same pass. -/
theorem readSlot_mixPass_high (x : Vector Word 56) (i : Fin 56) (h : 25 ≤ i.val) :
    readSlot (mixPass x) i =
      addMaxIfNeg (sub32 (readSlot x i) (readSlot (mixPass x) ⟨i.val - 24, by omega⟩)) := by
  have hlt := i.isLt
  obtain ⟨m, hm⟩ : ∃ m, i.val = m + 1 := ⟨i.val - 1, by omega⟩
  have hi : Fin.ofNat 56 (m + 1) = i := Fin.ext (by simp [Fin.ofNat]; omega)
  have hp : mixPartner i = ⟨i.val - 24, by omega⟩ := Fin.ext (by simp [mixPartner]; omega)
  have hpass : readSlot (mixPass x) ⟨i.val - 24, by omega⟩ = readSlot (mixSteps m x) ⟨i.val - 24, by omega⟩ := by
    rw [mixPass, show 55 = m + (55 - m) by omega, readSlot_mixSteps_stable _ _ (by omega) _ _ (by simp only; omega)]
  rw [hpass, mixPass, show 55 = (m + 1) + (54 - m) by omega, readSlot_mixSteps_stable _ _ (by omega) _ _ (by omega),
    mixSteps, hi, readSlot_mixStep, if_pos rfl, hp,
    readSlot_mixSteps_of_above m (by omega) _ _ (.inr (by omega))]

end Sys2Proof.Machine
end

