-- ==== Sys2Proof/Laws/SeedRange.lean ====
section
/-!
SUPPORT. The slot range inside SEED (10_state.md R20; 40_state_engine.md R63 to R65, R75): what the walk and a mixing
pass keep, and which values of `mj` can leave a slot out of range after the first pass.
-/

namespace Sys2Proof.Machine

/-- Two arrays that agree on slots 1 to 55. -/
abbrev SameUsed (x y : Vector Word 56) : Prop := ∀ i : Fin 56, i ≠ 0 → readSlot x i = readSlot y i

theorem fin_ne_zero {i : Fin 56} (h : 1 ≤ i.val) : i ≠ 0 := fun e => by simp [e] at h

theorem fin_pos {i : Fin 56} (h : i ≠ 0) : 1 ≤ i.val := by
  have : i.val ≠ 0 := fun e => h (Fin.ext e)
  omega

/-- The array after steps 2 and 3 does not depend on what it held, slot 0 apart (R60, R67). -/
theorem seedFill_sameUsed (seed : Int) (x y : Vector Word 56) : SameUsed (seedFill seed x) (seedFill seed y) := by
  intro i h0
  by_cases h55 : i = 55
  · rw [h55, readSlot_seedFill_55, readSlot_seedFill_55]
  · obtain ⟨k, h1, h2, rfl⟩ := slot_visited i h0 h55
    rw [readSlot_seedFill _ _ k h1 h2, readSlot_seedFill _ _ k h1 h2]

/-- A pass reads slots 1 to 55 only (R31). -/
theorem mixPass_sameUsed {x y : Vector Word 56} (h : SameUsed x y) : SameUsed (mixPass x) (mixPass y) := by
  have low : ∀ i : Fin 56, 1 ≤ i.val → i.val ≤ 24 → readSlot (mixPass x) i = readSlot (mixPass y) i := by
    intro i h1 h2
    rw [readSlot_mixPass_low x i h1 h2, readSlot_mixPass_low y i h1 h2, h i (fin_ne_zero h1),
      h ⟨i.val + 31, by omega⟩ (fin_ne_zero (by simp only; omega))]
  have mid : ∀ i : Fin 56, 25 ≤ i.val → i.val ≤ 48 → readSlot (mixPass x) i = readSlot (mixPass y) i := by
    intro i h1 h2
    rw [readSlot_mixPass_high x i h1, readSlot_mixPass_high y i h1, h i (fin_ne_zero (by omega)),
      low ⟨i.val - 24, by omega⟩ (by simp only; omega) (by simp only; omega)]
  intro i h0
  have hp := fin_pos h0
  by_cases h24 : i.val ≤ 24
  · exact low i hp h24
  by_cases h48 : i.val ≤ 48
  · exact mid i (by omega) h48
  rw [readSlot_mixPass_high x i (by omega), readSlot_mixPass_high y i (by omega), h i h0,
    mid ⟨i.val - 24, by omega⟩ (by simp only; omega) (by have := i.isLt; simp only; omega)]

/-- Passes in two groups are the passes in one. -/
theorem mixPasses_add (p q : Nat) (x : Vector Word 56) : mixPasses (p + q) x = mixPasses q (mixPasses p x) := by
  induction p generalizing x with
  | zero => rw [Nat.zero_add, mixPasses]
  | succ p ih => rw [Nat.succ_add, mixPasses, ih, mixPasses]

/-- The four passes of SEED as two and two. -/
theorem mixPasses_four (x : Vector Word 56) : mixPasses 4 x = mixPasses 2 (mixPasses 2 x) := mixPasses_add 2 2 x

theorem mixPasses_sameUsed (p : Nat) {x y : Vector Word 56} (h : SameUsed x y) :
    SameUsed (mixPasses p x) (mixPasses p y) := by
  induction p generalizing x y with
  | zero => exact h
  | succ p ih => exact ih (mixPass_sameUsed h)

/-- A pass keeps slot 0 (R11). -/
theorem readSlot_mixPasses_zero (p : Nat) (x : Vector Word 56) : readSlot (mixPasses p x) 0 = readSlot x 0 := by
  induction p generalizing x with
  | zero => rfl
  | succ p ih => rw [mixPasses, ih, readSlot_mixPass_zero]

/-- A pass over slots of which 1 to 54 are in range ends in range once slots 24 and 55 do (R64): slot 55 is the partner
of slot 24 only. -/
theorem mixPass_inRange_of {x : Vector Word 56} (h : ∀ i : Fin 56, 1 ≤ i.val → i.val ≤ 54 → InRange (readSlot x i))
    (h24 : InRange (readSlot (mixPass x) 24)) (h55 : InRange (readSlot (mixPass x) 55)) :
    SlotsInRange (mixPass x) := by
  have low : ∀ i : Fin 56, 1 ≤ i.val → i.val ≤ 24 → InRange (readSlot (mixPass x) i) := by
    intro i h1 h2
    by_cases e : i = 24
    · rw [e]; exact h24
    have h3 : i.val ≠ 24 := fun e' => e (Fin.ext e')
    rw [readSlot_mixPass_low x i h1 h2]
    exact addMaxIfNeg_sub32_inRange (h i h1 (by omega)) (h _ (by simp only; omega) (by simp only; omega))
  have mid : ∀ i : Fin 56, 25 ≤ i.val → i.val ≤ 48 → InRange (readSlot (mixPass x) i) := by
    intro i h1 h2
    rw [readSlot_mixPass_high x i h1]
    exact addMaxIfNeg_sub32_inRange (h i (by omega) (by omega)) (low _ (by simp only; omega) (by simp only; omega))
  intro i h0
  have hp := fin_pos h0
  by_cases e24 : i.val ≤ 24
  · exact low i hp e24
  by_cases e48 : i.val ≤ 48
  · exact mid i (by omega) e48
  by_cases e55 : i = 55
  · rw [e55]; exact h55
  have h3 : i.val ≠ 55 := fun e' => e55 (Fin.ext e')
  have := i.isLt
  rw [readSlot_mixPass_high x i (by omega)]
  exact addMaxIfNeg_sub32_inRange (h i hp (by omega)) (mid _ (by simp only; omega) (by simp only; omega))

/-- A pass keeps the slot range invariant (R64). -/
theorem mixPass_inRange {x : Vector Word 56} (h : SlotsInRange x) : SlotsInRange (mixPass x) := by
  have low : ∀ i : Fin 56, 1 ≤ i.val → i.val ≤ 24 → InRange (readSlot (mixPass x) i) := fun i h1 h2 => by
    rw [readSlot_mixPass_low x i h1 h2]
    exact addMaxIfNeg_sub32_inRange (h i (fin_ne_zero h1)) (h _ (fin_ne_zero (by simp only; omega)))
  have h31 : InRange (readSlot (mixPass x) 31) := by
    rw [readSlot_mixPass_high x 31 (by decide)]
    exact addMaxIfNeg_sub32_inRange (h _ (by decide)) (low _ (by decide) (by decide))
  refine mixPass_inRange_of (fun i h1 _ => h i (fin_ne_zero h1)) (low 24 (by decide) (by decide)) ?_
  rw [readSlot_mixPass_high x 55 (by decide)]
  exact addMaxIfNeg_sub32_inRange (h _ (by decide)) h31

theorem mixPasses_inRange (p : Nat) {x : Vector Word 56} (h : SlotsInRange x) : SlotsInRange (mixPasses p x) := by
  induction p generalizing x with
  | zero => exact h
  | succ p ih => exact ih (mixPass_inRange h)

/-- The range of `mj` (R62). -/
abbrev StartOk (v : Word) : Prop := -1985680249 ≤ v.toInt ∧ v.toInt ≤ 161803398

/-- R61, R62: every seed gives a start value in that range, and no subtraction wraps. -/
theorem seedStart_toInt {seed : Int} (h : SeedOk seed) :
    (seedStart seed).toInt = mseed - (if seed = minInt then maxInt else |seed|) := by
  have hs : (subtrahend seed).toInt = if seed = minInt then maxInt else |seed| := by
    unfold subtrahend
    split
    · exact wrap32_toInt_of_fits (by decide)
    · rename_i hne
      simp only [SeedOk, minInt] at *
      refine wrap32_toInt_of_fits ?_
      simp only [minInt, maxInt]
      have := abs_nonneg seed
      refine ⟨by omega, abs_le.mpr ⟨by omega, by omega⟩⟩
  have hm : (wrap32 mseed).toInt = mseed := wrap32_toInt_of_fits (by decide)
  have h0 : (0 : Int) ≤ (if seed = minInt then maxInt else |seed|) ∧
      (if seed = minInt then maxInt else |seed|) ≤ maxInt := by
    rw [← hs]; refine ⟨?_, (toInt_bounds _).2⟩
    rw [hs]; split
    · decide
    · exact abs_nonneg _
  rw [seedStart, sub32_toInt_of_fits, hm, hs]
  rw [hm, hs]; simp only [minInt, maxInt, mseed] at *; omega

theorem seedStart_ok {seed : Int} (h : SeedOk seed) : StartOk (seedStart seed) := by
  rw [StartOk, seedStart_toInt h]
  simp only [SeedOk, minInt, maxInt, mseed] at *
  have := abs_nonneg seed
  have h2 : seed ≠ -2147483648 → |seed| ≤ 2147483647 := fun hne => abs_le.mpr ⟨by omega, by omega⟩
  split_ifs <;> omega

/-- R63 (c): the walk's second computed value. -/
theorem walkSeq_two_inRange {v : Word} (h : StartOk v) : InRange (walkSeq v (wrap32 1) 2) := by
  have h1 : (wrap32 1).toInt = 1 := wrap32_toInt_of_fits (by decide)
  have hs : (sub32 v (wrap32 1)).toInt = v.toInt - 1 := by
    rw [sub32_toInt_of_fits (by rw [h1]; simp only [minInt, maxInt]; omega), h1]
  rw [walkSeq, walkSeq, walkSeq, InRange, addMaxIfNeg_toInt, hs]
  simp only [maxInt]; split <;> omega

/-- R63 (d): every value the walk stores is in range. -/
theorem walkSeq_inRange {v : Word} (h : StartOk v) (n : Nat) :
    InRange (walkSeq v (wrap32 1) (n + 1)) ∧ InRange (walkSeq v (wrap32 1) (n + 2)) := by
  induction n with
  | zero => exact ⟨by rw [walkSeq]; decide, walkSeq_two_inRange h⟩
  | succ n ih => exact ⟨ih.2, addMaxIfNeg_sub32_inRange ih.1 ih.2⟩

/-- R63 (d): after step 3 every slot in `x[1..54]` is in range. -/
theorem seedFill_inRange {seed : Int} (h : SeedOk seed) (x : Vector Word 56) (i : Fin 56) (h1 : 1 ≤ i.val)
    (h2 : i.val ≤ 54) : InRange (readSlot (seedFill seed x) i) := by
  obtain ⟨k, hk1, hk2, rfl⟩ := slot_visited i (fin_ne_zero h1) (fun e => by subst e; simp at h2)
  rw [readSlot_seedFill seed x k hk1 hk2]
  have := (walkSeq_inRange (seedStart_ok h) (k - 1)).1
  rwa [show k - 1 + 1 = k by omega] at this

/-- The coefficients of the walk's values as linear forms `a * mj + b` modulo MAX_INT. -/
def walkCoeffs : Nat → Int × Int
  | 0 => (1, 0)
  | 1 => (0, 1)
  | n + 2 => ((walkCoeffs n).1 - (walkCoeffs (n + 1)).1, (walkCoeffs n).2 - (walkCoeffs (n + 1)).2)

/-- An adjusted difference of in-range values is that difference modulo MAX_INT. -/
theorem addMaxIfNeg_sub32_mod {a b : Word} (h : minInt ≤ a.toInt - b.toInt ∧ a.toInt - b.toInt ≤ maxInt) :
    ∃ k : Int, (addMaxIfNeg (sub32 a b)).toInt = a.toInt - b.toInt + 2147483647 * k := by
  rw [addMaxIfNeg_toInt, sub32_toInt_of_fits h]
  split
  · exact ⟨1, rfl⟩
  · exact ⟨0, by omega⟩

theorem InRange.sub_fits {a b : Word} (ha : InRange a) (hb : InRange b) :
    minInt ≤ a.toInt - b.toInt ∧ a.toInt - b.toInt ≤ maxInt := by
  simp only [InRange, minInt, maxInt] at *; omega

/-- The walk's values are linear in `mj` modulo MAX_INT: no subtraction of step 3 wraps (R63 (c)). -/
theorem walkSeq_linear {v : Word} (h : StartOk v) (n : Nat) :
    (∃ k : Int, (walkSeq v (wrap32 1) n).toInt =
        (walkCoeffs n).1 * v.toInt + (walkCoeffs n).2 + 2147483647 * k) ∧
      ∃ k : Int, (walkSeq v (wrap32 1) (n + 1)).toInt =
        (walkCoeffs (n + 1)).1 * v.toInt + (walkCoeffs (n + 1)).2 + 2147483647 * k := by
  have h1 : (wrap32 1).toInt = 1 := wrap32_toInt_of_fits (by decide)
  induction n with
  | zero => exact ⟨⟨0, by simp [walkSeq, walkCoeffs]⟩, ⟨0, by simp [walkSeq, walkCoeffs, h1]⟩⟩
  | succ n ih =>
    refine ⟨ih.2, ?_⟩
    obtain ⟨⟨k1, e1⟩, ⟨k2, e2⟩⟩ := ih
    have fits : minInt ≤ (walkSeq v (wrap32 1) n).toInt - (walkSeq v (wrap32 1) (n + 1)).toInt ∧
        (walkSeq v (wrap32 1) n).toInt - (walkSeq v (wrap32 1) (n + 1)).toInt ≤ maxInt := by
      cases n with
      | zero => simp only [walkSeq, h1, minInt, maxInt]; omega
      | succ n => exact InRange.sub_fits (walkSeq_inRange h n).1 (walkSeq_inRange h n).2
    obtain ⟨k, e⟩ := addMaxIfNeg_sub32_mod fits
    refine ⟨k1 - k2 + k, ?_⟩
    rw [walkSeq, e, e1, e2, walkCoeffs]; ring

/-- R64, overflow: the difference with a negative second operand leaves the range only at two exact values. -/
theorem addMaxIfNeg_sub32_neg_right {a b : Word} (ha : InRange a) (hb : -2147483647 ≤ b.toInt ∧ b.toInt < 0)
    (h1 : a.toInt - b.toInt ≠ 2147483647) (h2 : a.toInt - b.toInt ≠ 2147483648) :
    InRange (addMaxIfNeg (sub32 a b)) := by
  rw [InRange, addMaxIfNeg_toInt, sub32_toInt, Int.bmod_def]
  simp only [InRange, maxInt] at *
  split_ifs <;> omega

/-- R64, overflow: the difference with a negative first operand leaves the range only at two exact values. -/
theorem addMaxIfNeg_sub32_neg_left {a b : Word} (hb : InRange b) (ha : -2147483647 ≤ a.toInt ∧ a.toInt < 0)
    (h1 : a.toInt - b.toInt ≠ -2147483648) (h2 : a.toInt - b.toInt ≠ -2147483649) :
    InRange (addMaxIfNeg (sub32 a b)) := by
  rw [InRange, addMaxIfNeg_toInt, sub32_toInt, Int.bmod_def]
  simp only [InRange, maxInt] at *
  split_ifs <;> omega

/-- The four start values for which the first pass stores a value outside the range (R75 (c)):
`MSEED` less 614279151, 1235228408, 1235545220 and 1333158113. -/
def repairedStarts : List Int := [-452475753, -1073425010, -1073741822, -1171354715]

/-- Slot 24 after the first pass (R75 (c)). -/
theorem firstPass_slot24 {seed : Int} (h : SeedOk seed) (hneg : (seedStart seed).toInt < 0)
    (hr : (seedStart seed).toInt ∉ repairedStarts) (x : Vector Word 56) :
    InRange (readSlot (mixPass (seedFill seed x)) 24) := by
  have hv := seedStart_ok h
  have e24 : readSlot (seedFill seed x) 24 = walkSeq (seedStart seed) (wrap32 1) 9 :=
    readSlot_seedFill seed x 9 (by omega) (by omega)
  have e55 : readSlot (seedFill seed x) ⟨(24 : Fin 56).val + 31, by decide⟩ = seedStart seed := readSlot_seedFill_55 _ _
  rw [readSlot_mixPass_low _ 24 (by decide) (by decide), e24, e55]
  obtain ⟨k, hk⟩ := (walkSeq_linear hv 9).1
  have hc : walkCoeffs 9 = (-21, 34) := by decide
  have hin := (walkSeq_inRange hv 8).1
  rw [hc] at hk
  simp only [repairedStarts, List.mem_cons, List.not_mem_nil, or_false, not_or] at hr
  simp only [StartOk] at hv
  refine addMaxIfNeg_sub32_neg_right hin ⟨by omega, hneg⟩ ?_ ?_ <;> simp only [InRange, maxInt] at hin <;> omega

/-- R75 (c) at slot 55, as integers: the two exact values are reached from two starts only. 620949257 is the inverse of
`1 - 1150029940` modulo MAX_INT. -/
theorem firstPass_diff55 {v y k : Int} (hv : -1985680249 ≤ v ∧ v ≤ 161803398) (hr : v ∉ repairedStarts)
    (hy : y = 1150029940 * v - 1860787531 + 2147483647 * k) : v - y ≠ -2147483648 ∧ v - y ≠ -2147483649 := by
  simp only [repairedStarts, List.mem_cons, List.not_mem_nil, or_false, not_or] at hr
  have solve : ∀ D v0 : Int, v - y = D → 620949257 * (D - 1860787531) - v0 = 2147483647 * -1158999750 →
      ∃ t : Int, v = v0 + 2147483647 * t := fun D v0 hD h0 =>
    ⟨-1158999750 + 620949257 * k + 332533492 * v, by linarith⟩
  constructor <;> intro e
  · obtain ⟨t, ht⟩ := solve _ (-452475753) e (by norm_num)
    clear solve hy e
    omega
  · obtain ⟨t, ht⟩ := solve _ (-1073425010) e (by norm_num)
    clear solve hy e
    omega

/-- Slot 55 after the first pass (R75 (c)). -/
theorem firstPass_slot55 {seed : Int} (h : SeedOk seed) (hneg : (seedStart seed).toInt < 0)
    (hr : (seedStart seed).toInt ∉ repairedStarts) (x : Vector Word 56) :
    InRange (readSlot (mixPass (seedFill seed x)) 55) := by
  have hv := seedStart_ok h
  have r31 : readSlot (seedFill seed x) 31 = walkSeq (seedStart seed) (wrap32 1) 46 :=
    readSlot_seedFill seed x 46 (by omega) (by omega)
  have r7 : readSlot (seedFill seed x) 7 = walkSeq (seedStart seed) (wrap32 1) 37 :=
    readSlot_seedFill seed x 37 (by omega) (by omega)
  have r38 : readSlot (seedFill seed x) ⟨(7 : Fin 56).val + 31, by decide⟩ = walkSeq (seedStart seed) (wrap32 1) 28 :=
    readSlot_seedFill seed x 28 (by omega) (by omega)
  have i46 := (walkSeq_inRange hv 45).1
  have i37 := (walkSeq_inRange hv 36).1
  have i28 := (walkSeq_inRange hv 27).1
  have m7 := readSlot_mixPass_low (seedFill seed x) 7 (by decide) (by decide)
  rw [r7, r38] at m7
  have im7 := addMaxIfNeg_sub32_inRange i37 i28
  obtain ⟨k7, hk7⟩ := addMaxIfNeg_sub32_mod (InRange.sub_fits i37 i28)
  rw [← m7] at im7 hk7
  have m31 := readSlot_mixPass_high (seedFill seed x) 31 (by decide)
  have e7 : (⟨(31 : Fin 56).val - 24, by decide⟩ : Fin 56) = 7 := by decide
  rw [r31, e7] at m31
  have im31 := addMaxIfNeg_sub32_inRange i46 im7
  obtain ⟨k31, hk31⟩ := addMaxIfNeg_sub32_mod (InRange.sub_fits i46 im7)
  rw [← m31] at im31 hk31
  have e31 : (⟨(55 : Fin 56).val - 24, by decide⟩ : Fin 56) = 31 := by decide
  rw [readSlot_mixPass_high _ 55 (by decide), readSlot_seedFill_55, e31]
  obtain ⟨a, ha⟩ := (walkSeq_linear hv 46).1
  obtain ⟨b, hb⟩ := (walkSeq_linear hv 37).1
  obtain ⟨c, hc⟩ := (walkSeq_linear hv 28).1
  rw [show walkCoeffs 46 = (1134903170, -1836311903) by decide +kernel] at ha
  rw [show walkCoeffs 37 = (-14930352, 24157817) by decide +kernel] at hb
  rw [show walkCoeffs 28 = (196418, -317811) by decide +kernel] at hc
  simp only [StartOk] at hv
  have hy : (readSlot (mixPass (seedFill seed x)) 31).toInt =
      1150029940 * (seedStart seed).toInt - 1860787531 + 2147483647 * (a - b + c - k7 + k31) := by
    rw [hk31, hk7, ha, hb, hc]; ring
  obtain ⟨n1, n2⟩ := firstPass_diff55 hv hr hy
  exact addMaxIfNeg_sub32_neg_left im31 ⟨by omega, hneg⟩ n1 n2

/-- The array after steps 2 and 3 from a given `mj`, on an array of zeros. -/
def fillFrom (v : Int) : Vector Word 56 :=
  walkFill 54 0 (wrap32 v) (wrap32 1) (writeSlot (Vector.replicate 56 0#32) 55 (wrap32 v))

/-- R75 (c), 95_test_vectors.md V9: the second pass repairs `subtrahend = 614279151`. -/
theorem repaired_614279151 : SlotsInRange (mixPasses 2 (fillFrom (-452475753))) := by
  unfold SlotsInRange; decide +kernel

/-- R75 (c), 95_test_vectors.md V10: the second pass repairs `subtrahend = 1235228408`. -/
theorem repaired_1235228408 : SlotsInRange (mixPasses 2 (fillFrom (-1073425010))) := by
  unfold SlotsInRange; decide +kernel

/-- R75 (c), 95_test_vectors.md V10: the second pass repairs `subtrahend = 1235545220`. -/
theorem repaired_1235545220 : SlotsInRange (mixPasses 2 (fillFrom (-1073741822))) := by
  unfold SlotsInRange; decide +kernel

/-- R75 (c), 95_test_vectors.md V10: the second pass repairs `subtrahend = 1333158113`. -/
theorem repaired_1333158113 : SlotsInRange (mixPasses 2 (fillFrom (-1171354715))) := by
  unfold SlotsInRange; decide +kernel

end Sys2Proof.Machine
end

