-- ==== Sys2Proof/Tests/Slice0.lean ====
section
/-!
SUPPORT. The model's own tests. Expected values are those of 95_test_vectors.md (V<n>) or words written out from the
opcode map R50; the witnesses show that the hypotheses of the statements can be met.
-/

namespace Sys2Proof.Tests

open Sys2Proof.Machine Sys2Proof.Claim

/-! ### Small states -/

/-- All slots 0, the cursors as SEED leaves them. -/
def zeros : Engine := ⟨Vector.replicate 56 0#32, 0, 21⟩

/-- The first four draws of this engine are those of 95_test_vectors.md section 4 (`SEED 0`): the slots they subtract from
hold the values, all others 0. -/
def fourDraws : Engine :=
  { zeros with x := writeSlot (writeSlot (writeSlot (writeSlot zeros.x 1 0x5CF58A1A#32) 2 0x689E1E0C#32)
      3 0x624E9146#32) 4 0x4771D36F#32 }

/-- A state with a generator. -/
def ready (e : Engine) : State := ⟨e, true, [], [], 1⟩

/-- A state without one. -/
def fresh : State := ⟨zeros, false, [], [], 1⟩

/-- The same state with things presented. -/
def presenting (events : List HostEvent) (s : State) : State := { s with cmd := events }

/-- The records in the output stream, and where the cursors stand. -/
def seen : Host.Outcome State Fault Refusal → List Record × Nat × Nat
  | .next t => (t.out, t.engine.cursorA.val, t.engine.cursorB.val)
  | .fault _ => ([], 0, 0)
  | .refused _ => ([], 0, 0)

/-- What a command does on `fourDraws`. -/
def onFour (i : Instr) : List Record × Nat × Nat := seen (exec i (ready fourDraws))

/-- What a word does on a state. -/
def onWord (w : Command) (s : State) : List Record × Nat × Nat := seen (runCommand w s)

/-! ### Operand ranges: an ill-formed term for each check (R44) -/

theorem test_seed_too_large_refused : Instr.wellFormed (.seed 2147483648) = false := by decide
theorem test_seed_too_small_refused : Instr.wellFormed (.seed (-2147483649)) = false := by decide
theorem test_seed_bounds_accepted :
    Instr.wellFormed (.seed 2147483647) = true ∧ Instr.wellFormed (.seed (-2147483648)) = true := by decide
theorem test_raw_size_too_large_refused :
    Instr.wellFormed (.sampleRaw 65536) = false ∧ Instr.wellFormed (.fillRaw 65536 1) = false := by decide
theorem test_raw_size_bound_accepted :
    Instr.wellFormed (.sampleRaw 65535) = true ∧ Instr.wellFormed (.fillRaw 65535 4294967295) = true := by decide
theorem test_count_too_large_refused :
    ∀ i ∈ [.fillI8 4294967296, .fillI16 4294967296, .fillI32 4294967296, .fillI64 4294967296, .fillU8 4294967296,
      .fillU16 4294967296, .fillU32 4294967296, .fillU64 4294967296, .fillF32 4294967296, .fillF64 4294967296,
      .fillDec 4294967296, .fillRaw 1 4294967296], Instr.wellFormed i = false := by decide

/-! ### Words written out from the opcode map (R50) and the vectors -/

/-- V79, V4 and P1. -/
theorem test_decode_state_engine :
    decode 0x01000000FFFFFFFF#64 = .ok (.seed (-1)) ∧ decode 0x010000000000002A#64 = .ok (.seed 42) ∧
      decode 0x0100000080000000#64 = .ok (.seed (-2147483648)) ∧ decode 0x0200000000000000#64 = .ok .draw := by decide

/-- V20 to V23b. -/
theorem test_decode_sample_integers :
    decode 0x0300000000000000#64 = .ok .sampleI8 ∧ decode 0x0301000000000000#64 = .ok .sampleI16 ∧
      decode 0x0302000000000000#64 = .ok .sampleI32 ∧ decode 0x0303000000000000#64 = .ok .sampleI64 ∧
      decode 0x0304000000000000#64 = .ok .sampleU8 ∧ decode 0x0305000000000000#64 = .ok .sampleU16 ∧
      decode 0x0306000000000000#64 = .ok .sampleU32 ∧ decode 0x0307000000000000#64 = .ok .sampleU64 := by decide

/-- V24 to V27h. -/
theorem test_decode_sample_others :
    decode 0x0308000000000000#64 = .ok .sampleF32 ∧ decode 0x0309000000000000#64 = .ok .sampleF64 ∧
      decode 0x030A000000000000#64 = .ok .sampleDec ∧ decode 0x030B000A00000000#64 = .ok (.sampleRaw 10) ∧
      decode 0x030BFFFF00000000#64 = .ok (.sampleRaw 65535) := by decide

/-- V50 to V56, and the remaining rows of R50. -/
theorem test_decode_fill_integers :
    decode 0x0400000000000001#64 = .ok (.fillI8 1) ∧ decode 0x0401000000000002#64 = .ok (.fillI16 2) ∧
      decode 0x0402000000000001#64 = .ok (.fillI32 1) ∧ decode 0x0403000000000002#64 = .ok (.fillI64 2) ∧
      decode 0x0404000000000004#64 = .ok (.fillU8 4) ∧ decode 0x04050000FFFFFFFF#64 = .ok (.fillU16 4294967295) ∧
      decode 0x0406000000000000#64 = .ok (.fillU32 0) ∧ decode 0x0407000080000000#64 = .ok (.fillU64 2147483648) := by
  decide

/-- V52 to V59. -/
theorem test_decode_fill_others :
    decode 0x0408000000000003#64 = .ok (.fillF32 3) ∧ decode 0x0409000000000003#64 = .ok (.fillF64 3) ∧
      decode 0x040A000000000003#64 = .ok (.fillDec 3) ∧ decode 0x040B000600000002#64 = .ok (.fillRaw 6 2) ∧
      decode 0x040B000000000003#64 = .ok (.fillRaw 0 3) := by decide

/-- V65 to V69 and V77. -/
theorem test_decode_reserved :
    decode 0x030C000000000000#64 = .error .unsupportedType ∧ decode 0x04FF000000000001#64 = .error .unsupportedType ∧
      decode 0x0000000000000000#64 = .error .illegalCommand ∧ decode 0x0500000000000000#64 = .error .illegalCommand ∧
      decode 0xFF0A000000000000#64 = .error .illegalCommand ∧
      decode 0x030C000100000000#64 = .error .unsupportedType := by decide

/-- V70 to V76. -/
theorem test_decode_must_be_zero :
    decode 0x0200000000000001#64 = .error .illegalCommand ∧ decode 0x0101000000000000#64 = .error .illegalCommand ∧
      decode 0x0100000100000000#64 = .error .illegalCommand ∧ decode 0x0302000100000000#64 = .error .illegalCommand ∧
      decode 0x0302000000000001#64 = .error .illegalCommand ∧ decode 0x030B000400000001#64 = .error .illegalCommand ∧
      decode 0x0409000100000002#64 = .error .illegalCommand := by decide

/-- R48, R124: a decimal word with a non-zero must-be-zero field reports the type first. -/
theorem test_decode_decimal_fields :
    decode 0x030A000000000001#64 = .error .unsupportedType ∧ decode 0x040A000100000003#64 = .error .unsupportedType := by
  decide

/-- The table's numbering: `FILL.RAW 6, 2` (V54) in 64 bits, and a row the table gives fewer bits. -/
theorem test_decode_table_word :
    decodeTableWord 64 0x040B000600000002 = some (.fillRaw 6 2) ∧ decodeTableWord 64 0x0700000000000000 = none ∧
      decodeTableWord 65 0x0200000000000000 = none := by decide

/-- P1: the host's word is what the next step runs. -/
theorem test_fetch_word_runs :
    step (State.reset.withFetchWord 64 0x0200000000000000) = exec .draw State.reset := by rfl

/-! ### The State Engine -/

/-- V1: the first rows of step 3, and the last value. -/
theorem test_seed_walk :
    readSlot (seedFill 0 zeros.x) 21 = 1#32 ∧ readSlot (seedFill 0 zeros.x) 42 = 161803397#32 ∧
      readSlot (seedFill 0 zeros.x) 8 = 1985680251#32 ∧ readSlot (seedFill 0 zeros.x) 55 = 161803398#32 := by
  decide +kernel

/-- V1: rows of pass 1 in place. -/
theorem test_seed_mix :
    readSlot (mixPass (seedFill 0 zeros.x)) 1 = 1248566697#32 ∧
      readSlot (mixPass (seedFill 0 zeros.x)) 24 = 735292572#32 ∧
      readSlot (mixPass (seedFill 0 zeros.x)) 25 = 643732037#32 ∧
      readSlot (mixPass (seedFill 0 zeros.x)) 55 = 1419284946#32 := by decide +kernel

/-- V1: the array SEED leaves, and the draw that P1 begins with. -/
theorem test_seed_zero :
    readSlot (seedEngine 0 zeros).x 1 = 1440537475#32 ∧ readSlot (seedEngine 0 zeros).x 8 = 516845708#32 ∧
      (draw (seedEngine 0 zeros)).1 = 0x5CF58A1A#32 := by decide +kernel

/-- P3 and P6: the first draws of `SEED -1` and `SEED 12345`. -/
theorem test_seed_draws :
    (draw (seedEngine (-1) zeros)).1 = 534011718#32 ∧ (draw (seedEngine 12345 zeros)).1 = 0x088B29DF#32 := by
  decide +kernel

/-- P1: DRAW. -/
theorem test_draw : onFour .draw = ([.val 32 0x5CF58A1A#32, .done .ok], 1, 22) := by decide

/-- R68: the cursors wrap from 55 to 1, the difference MAX_INT becomes MAX_INT - 1, a negative difference gets MAX_INT. -/
theorem test_draw_corners :
    stepCursor 55 = 1 ∧ stepCursor 0 = 1 ∧ drawResult 0x7FFFFFFF#32 0#32 = 0x7FFFFFFE#32 ∧
      drawResult 0#32 1#32 = 0x7FFFFFFE#32 ∧ drawResult 5#32 5#32 = 0#32 := by decide

/-! ### SAMPLE (V20 to V27h) -/

theorem test_sample_i8 : onFour .sampleI8 = ([.val 8 0x1A#8, .done .ok], 1, 22) := by decide
theorem test_sample_u8 : onFour .sampleU8 = ([.val 8 0x1A#8, .done .ok], 1, 22) := by decide
theorem test_sample_i16 : onFour .sampleI16 = ([.val 16 0x8A1A#16, .done .ok], 1, 22) := by decide
theorem test_sample_u16 : onFour .sampleU16 = ([.val 16 35354#16, .done .ok], 1, 22) := by decide
theorem test_sample_i32 : onFour .sampleI32 = ([.val 32 0x5CF58A1A#32, .done .ok], 1, 22) := by decide
theorem test_sample_u32 : onFour .sampleU32 = ([.val 32 0x5CF58A1A#32, .done .ok], 1, 22) := by decide
theorem test_sample_i64 : onFour .sampleI64 = ([.val 64 0x689E1E0C5CF58A1A#64, .done .ok], 2, 23) := by decide
theorem test_sample_u64 : onFour .sampleU64 = ([.val 64 0x689E1E0C5CF58A1A#64, .done .ok], 2, 23) := by decide
theorem test_sample_f32 : onFour .sampleF32 = ([.val 32 0x3F39EB14#32, .done .ok], 1, 22) := by decide +kernel
theorem test_sample_f64 : onFour .sampleF64 = ([.val 64 0x3FE73D6286AE7AC5#64, .done .ok], 1, 22) := by decide +kernel
theorem test_sample_dec : onFour .sampleDec = ([.done .unsupportedType], 0, 21) := by decide
theorem test_sample_raw :
    onFour (.sampleRaw 5) = ([.val 40 0x0C5CF58A1A#40, .done .ok], 2, 23) ∧
      onFour (.sampleRaw 10) = ([.val 80 0x9146689E1E0C5CF58A1A#80, .done .ok], 3, 24) := by decide +kernel
theorem test_sample_raw_0 : onFour (.sampleRaw 0) = ([.val 0 0#0, .done .ok], 0, 21) := by decide +kernel

/-- V30 to V36: the conversion to binary64. -/
theorem test_f64_table :
    bits64 (scaleDraw 0#32) = 0x0000000000000000#64 ∧ bits64 (scaleDraw 1#32) = 0x3E00000000200000#64 ∧
      bits64 (scaleDraw 1073741823#32) = 0x3FDFFFFFFFC00000#64 ∧
      bits64 (scaleDraw 2147483583#32) = 0x3FEFFFFFF0000000#64 ∧
      bits64 (scaleDraw 2147483646#32) = 0x3FEFFFFFFFC00000#64 := by decide +kernel

/-- V32, V35, V38: the narrowing to binary32, toward zero and to nearest. -/
theorem test_f32_table :
    bits32 (narrow32 .rtz (scaleDraw 1073741823#32)) = 0x3EFFFFFF#32 ∧
      bits32 (narrow32 .rne (scaleDraw 1073741823#32)) = 0x3F000000#32 ∧
      bits32 (narrow32 .rtz (scaleDraw 2147483583#32)) = 0x3F7FFFFF#32 ∧
      bits32 (narrow32 .rne (scaleDraw 2147483583#32)) = 0x3F800000#32 ∧
      bits32 (narrow32 .rtz (scaleDraw 1649316172#32)) = 0x3F449D22#32 ∧
      bits32 (narrow32 .rne (scaleDraw 1649316172#32)) = 0x3F449D23#32 := by decide +kernel

/-! ### FILL (V50 to V59; the others from the SAMPLE of the type, R114) -/

theorem test_fill_i8 : onFour (.fillI8 2) = ([.val 8 0x1A#8, .val 8 0x0C#8, .done .ok], 2, 23) := by decide
theorem test_fill_u8 :
    onFour (.fillU8 4) = ([.val 8 0x1A#8, .val 8 0x0C#8, .val 8 0x46#8, .val 8 0x6F#8, .done .ok], 4, 25) := by decide
theorem test_fill_i16 : onFour (.fillI16 2) = ([.val 16 0x8A1A#16, .val 16 0x1E0C#16, .done .ok], 2, 23) := by decide
theorem test_fill_u16 : onFour (.fillU16 1) = ([.val 16 0x8A1A#16, .done .ok], 1, 22) := by decide
theorem test_fill_i32 : onFour (.fillI32 1) = ([.val 32 0x5CF58A1A#32, .done .ok], 1, 22) := by decide
theorem test_fill_u32 :
    onFour (.fillU32 2) = ([.val 32 0x5CF58A1A#32, .val 32 0x689E1E0C#32, .done .ok], 2, 23) := by decide
theorem test_fill_i64 :
    onFour (.fillI64 2) = ([.val 64 0x689E1E0C5CF58A1A#64, .val 64 0x4771D36F624E9146#64, .done .ok], 4, 25) := by
  decide
theorem test_fill_u64 : onFour (.fillU64 1) = ([.val 64 0x689E1E0C5CF58A1A#64, .done .ok], 2, 23) := by decide
theorem test_fill_f32 :
    onFour (.fillF32 3) = ([.val 32 0x3F39EB14#32, .val 32 0x3F513C3C#32, .val 32 0x3F449D22#32, .done .ok], 3, 24) := by
  decide +kernel
theorem test_fill_f64 :
    onFour (.fillF64 3) = ([.val 64 0x3FE73D6286AE7AC5#64, .val 64 0x3FEA278783344F0F#64, .val 64 0x3FE893A451B12749#64,
      .done .ok], 3, 24) := by decide +kernel
theorem test_fill_dec :
    onFour (.fillDec 3) = ([.done .unsupportedType], 0, 21) ∧ onFour (.fillDec 0) = ([.done .unsupportedType], 0, 21) := by
  decide
theorem test_fill_raw :
    onFour (.fillRaw 6 2) = ([.val 48 0x1E0C5CF58A1A#48, .val 48 0xD36F624E9146#48, .done .ok], 4, 25) := by
  decide +kernel
theorem test_fill_raw_0 :
    onFour (.fillRaw 0 3) = ([.val 0 0#0, .val 0 0#0, .val 0 0#0, .done .ok], 0, 21) := by decide +kernel
theorem test_fill_nothing :
    onFour (.fillI32 0) = ([.done .ok], 0, 21) ∧ onFour (.fillRaw 6 0) = ([.done .ok], 0, 21) := by decide

/-! ### Errors (V60 to V78) and the host -/

theorem test_not_seeded :
    onWord 0x0200000000000000#64 fresh = ([.done .notSeeded], 0, 21) ∧
      onWord 0x0302000000000000#64 fresh = ([.done .notSeeded], 0, 21) ∧
      onWord 0x0402000000000000#64 fresh = ([.done .notSeeded], 0, 21) := by decide

theorem test_error_priority :
    onWord 0x030A000000000000#64 fresh = ([.done .unsupportedType], 0, 21) ∧
      onWord 0x0302000000000001#64 fresh = ([.done .illegalCommand], 0, 21) ∧
      onWord 0x030C000100000000#64 fresh = ([.done .unsupportedType], 0, 21) := by decide

/-- R148: reset in the middle of `FILL.U8 4` with two beats out. -/
theorem test_reset_cuts_fill :
    ∃ t, step (presenting [.commandCut 0x0404000000000004#64 2] (ready fourDraws)) = .next t ∧
      t.out = [.val 8 0x1A#8, .val 8 0x0C#8] ∧ t.seeded = false := ⟨_, rfl, by decide, rfl⟩

/-- R140: reset between commands. -/
theorem test_reset_between :
    ∃ t, step (presenting [.reset] (ready fourDraws)) = .next t ∧ t.out = [] ∧ t.seeded = false := ⟨_, rfl, rfl, rfl⟩

/-! ### The hypotheses of the statements can be met -/

/-- Values the statements quantify over, at the ends of their ranges. -/
theorem witness_operands :
    SeedOk (-2147483648) ∧ SeedOk 2147483647 ∧ SizeOk 0 ∧ SizeOk 65535 ∧ CountOk 0 ∧ CountOk 4294967295 := by decide

/-- DecodeOfEncode: a command of every shape. -/
theorem witness_decode_of_encode :
    Instr.WellFormed (.seed (-2147483648)) ∧ Instr.WellFormed .sampleF32 ∧ Instr.WellFormed (.fillI8 4294967295) ∧
      Instr.WellFormed (.fillRaw 65535 4294967295) := by decide

/-- EveryWordIsCommandOrError: a word of each case. -/
theorem witness_every_word :
    (Instr.WellFormed .draw ∧ decode 0x0200000000000000#64 = .ok .draw ∧ encode .draw = 0x0200000000000000#64) ∧
      decode 0x0200000000000001#64 = .error .illegalCommand ∧ decode 0x030C000000000000#64 = .error .unsupportedType := by
  decide

/-- OpcodeMapSelects: a word on a row, with its neighbour off it. -/
theorem witness_opcode_map :
    0x010000007FFFFFFF#64 &&& (opcodeRow (.seed 0)).mask = (opcodeRow (.seed 0)).pattern ∧
      0x010000017FFFFFFF#64 &&& (opcodeRow (.seed 0)).mask ≠ (opcodeRow (.seed 0)).pattern := by decide

/-- ReservedEncodings: OPC 0x00 and 0x05, TYPE 0x0C and 0xFF of both families, the decimal TYPE. -/
theorem witness_reserved :
    BadOpc 0x0000000000000000#64 ∧ BadOpc 0x0500000000000000#64 ∧
      (opcField 0x030C000000000000#64 = 0x03#8 ∧ 0x0C ≤ (typeField 0x030C000000000000#64).toNat) ∧
      (opcField 0x04FF000000000001#64 = 0x04#8 ∧ 0x0C ≤ (typeField 0x04FF000000000001#64).toNat) ∧
      (opcField 0x030A000000000000#64 = 0x03#8 ∧ typeField 0x030A000000000000#64 = 0x0A#8 ∧
        Config.decSupported = false) := by decide

/-- MustBeZeroFields: a word of each case, without and with a bad TYPE. -/
theorem witness_must_be_zero :
    (BadFields 0x0101000000000000#64 ∧ ¬ BadType 0x0101000000000000#64) ∧
      (BadFields 0x0200000000000001#64 ∧ ¬ BadType 0x0200000000000001#64) ∧
      (BadFields 0x030B000400000001#64 ∧ ¬ BadType 0x030B000400000001#64) ∧
      (BadFields 0x0409000100000002#64 ∧ ¬ BadType 0x0409000100000002#64) ∧
      (BadFields 0x030C000100000000#64 ∧ BadType 0x030C000100000000#64) ∧
      (BadFields 0x040A000100000000#64 ∧ BadType 0x040A000100000000#64) := by
  refine ⟨⟨?_, ?_⟩, ⟨?_, ?_⟩, ⟨?_, ?_⟩, ⟨?_, ?_⟩, ⟨?_, ?_⟩, ?_, ?_⟩ <;> decide

/-- ReportedErrorPriority: a word of each case. -/
theorem witness_reported :
    reported 0x0500000000000000#64 false = some .illegalCommand ∧
      reported 0x030C000100000000#64 false = some .unsupportedType ∧
      reported 0x0302000000000001#64 false = some .illegalCommand ∧
      reported 0x0302000000000000#64 false = some .notSeeded ∧ reported 0x0302000000000000#64 true = none ∧
      reported 0x01000000FFFFFFFF#64 false = none := by decide

/-- The statements about a step: a state for each thing presented, and for nothing. -/
theorem witness_presented :
    (presenting [.command 0x0200000000000000#64] fresh).cmd = .command 0x0200000000000000#64 :: [] ∧
      decode 0x0200000000000000#64 = .ok .draw ∧ decode 0x0700000000000000#64 = .error .illegalCommand ∧
      decode 0x030C000000000000#64 = .error .unsupportedType ∧ fresh.cmd = [] ∧
      (presenting [.reset] fresh).cmd = .reset :: [] ∧
      (presenting [.commandCut 0x0404000000000004#64 2] fresh).cmd = .commandCut 0x0404000000000004#64 2 :: [] := by
  decide

/-- StepKeepsStreams, StepKeepsCursorLag, StepKeepsSlotRange: a step from a state with a generator that meets both
invariants. -/
theorem witness_step_invariants :
    LagInv (presenting [.command 0x0200000000000000#64] (ready fourDraws)) ∧
      RangeInv (presenting [.command 0x0200000000000000#64] (ready fourDraws)) ∧
      (presenting [.command 0x0200000000000000#64] (ready fourDraws)).seeded = true ∧
      ∃ t, step (presenting [.command 0x0200000000000000#64] (ready fourDraws)) = .next t :=
  ⟨fun _ => by unfold CursorLag; decide, fun _ => by unfold SlotsInRange; decide +kernel, rfl, _, rfl⟩

/-- SeedConstructs and DrawStoresAndEmits: non-zero fields. -/
theorem witness_nonzero_fields :
    (0x01#8 ≠ 0#8 ∨ 0#16 ≠ 0#16) ∧ (0#8 ≠ 0#8 ∨ 0x8000#16 ≠ 0#16) ∧ (0#8 ≠ 0#8 ∨ 0#16 ≠ 0#16 ∨ 1#32 ≠ 0#32) := by decide

/-- MixingPass: slots at both ends of `[-1, MAX_INT]`. -/
theorem witness_near_range :
    SlotsNearRange (writeSlot (writeSlot zeros.x 1 0xFFFFFFFF#32) 55 0x7FFFFFFF#32) := by
  unfold SlotsNearRange; decide +kernel

/-- SeedsAlias and SmallSeedsNeverWrap: the seeds at the ends. -/
theorem witness_seeds :
    (SeedOk 2147483647 ∧ (2147483647 : Int) ≠ -2147483648) ∧ |(161803398 : Int)| ≤ 161803398 ∧
      |(-161803398 : Int)| ≤ 161803398 := by decide

/-- DrawStoresAndEmits, the SAMPLE and FILL statements: a state with a generator whose cursors keep the lag and whose
slots are in range, at both ends of the range. -/
theorem witness_ready :
    (ready fourDraws).seeded = true ∧ CursorLag (ready fourDraws).engine ∧
      SlotsInRange (writeSlot (writeSlot zeros.x 1 0x7FFFFFFE#32) 55 0#32) :=
  ⟨rfl, by unfold CursorLag; decide, by unfold SlotsInRange; decide +kernel⟩

/-- LaggedFibonacci, CursorLagAndPositions: the numbers of draws where the clauses meet. -/
theorem witness_draw_numbers :
    (1 ≤ 1 ∧ 1 ≤ 34) ∧ (35 ≤ 35 ∧ 35 ≤ 55) ∧ (35 ≤ 55 ∧ 55 ≤ 55) ∧ 56 ≤ 56 ∧ 2 ≠ (1 - 1) % 55 + 1 ∧
      1 ≠ (55 - 1) % 55 + 1 ∧ 2 ≠ (56 - 1) % 55 + 1 := by decide

/-- DrawAccounting, FrameOfDrawingCommands, SlotZeroUntouched: a command that completes, and a slot it does not store to. -/
theorem witness_frame :
    isSeed (.fillU8 2) = false ∧ (∃ t, exec (.fillU8 2) (ready fourDraws) = .next t) ∧
      (∀ m, m < drawsOf (.fillU8 2) → (after (m + 1) (ready fourDraws).engine).cursorA ≠ 3) ∧
      decode 0x0700000000000000#64 = .error .illegalCommand := ⟨rfl, ⟨_, rfl⟩, by decide, by decide⟩

/-- The SAMPLE statements: no generator, and non-zero fields. -/
theorem witness_sample_errors :
    fresh.seeded = false ∧ (0xFFFF#16 ≠ 0#16 ∨ 0#32 ≠ 0#32) ∧ (0#16 ≠ 0#16 ∨ 0x80000000#32 ≠ 0#32) ∧ 1#32 ≠ 0#32 := by
  decide

/-- F64InUnitInterval, F32InUnitInterval: draws at both ends of the range. -/
theorem witness_draws_in_range :
    InRange 0#32 ∧ InRange 2147483646#32 ∧ (0#32).toInt ≤ (2147483646#32).toInt ∧ ¬ InRange 2147483647#32 ∧
      2147483583 ≤ (2147483583#32).toInt := by decide

/-- SampleF64RoundsProduct, SampleF32Truncates: a draw that is 0 and one that is not. -/
theorem witness_draw_zero_or_not :
    (draw (ready zeros).engine).1 = 0#32 ∧ (draw (ready fourDraws).engine).1 ≠ 0#32 := by decide

/-- ResetState: a state without a generator (after some records, so not State.reset) and a word that is no SEED. -/
theorem witness_reset_word :
    (failed fresh .notSeeded).seeded = false ∧ ∀ z, decode 0x0200000000000000#64 ≠ .ok (.seed z) := by
  refine ⟨rfl, fun z h => ?_⟩
  rw [show decode 0x0200000000000000#64 = .ok .draw by decide] at h
  injection h with h
  cases h

/-- ScaleConstant: the ends of the magnitudes. -/
theorem witness_magnitudes : (0 : Nat) < 2 ^ 53 ∧ 2 ^ 53 - 1 < 2 ^ 53 := by decide

/-- SampleRawBytes: a first and a last byte of a value of 5 bytes. -/
theorem witness_raw_bytes : 0 < 5 ∧ 4 < 5 ∧ SizeOk 5 ∧ SizeOk 65535 := by decide

/-- DecimalSupported: the two states, and the ends of the beats. -/
theorem witness_decimal : fresh.seeded = false ∧ (ready zeros).seeded = true ∧ 0 < 2 ∧ 1 < 2 := by decide

/-- The FILL statements: every constructor of the list is one of its types, here the first and the last. -/
theorem witness_fill_types :
    (.fillI8, .sampleI8, 1) ∈ fillTypes 6 ∧ (.fillRaw 6, .sampleRaw 6, 2) ∈ fillTypes 6 ∧
      0x0C ≤ (0x0C#8).toNat ∧ 0x0C ≤ (0xFF#8).toNat := by
  refine ⟨?_, ?_, by decide, by decide⟩ <;> simp [fillTypes]

/-- FillWords: the first and the last code, and the ends of the operands. -/
theorem witness_fill_codes :
    (0x00#8, Instr.fillI8) ∈ fillCodes ∧ (0x09#8, Instr.fillF64) ∈ fillCodes ∧ CountOk 0 ∧ CountOk 4294967295 ∧
      0xFFFF#16 ≠ 0#16 ∧ SizeOk 65535 := by
  refine ⟨?_, ?_, by decide, by decide, by decide, by decide⟩ <;> simp [fillCodes]

/-- ErrorEntry, OneCompletionRecord: an answer that is an error and one that is not. -/
theorem witness_status : Status.ok = .ok ∧ Status.notSeeded ≠ .ok := by decide

/-- ErrorsNotSticky: an error, and another word that then completes. -/
theorem witness_not_sticky :
    runCommand 0x0200000000000000#64 fresh = .next (failed fresh .notSeeded) ∧
      ∃ t, runCommand 0x0404000000000000#64 fresh = .next t := ⟨rfl, _, rfl⟩

/-- NotSeededBeforeSeed: a command the rule speaks of. -/
theorem witness_needs_seed : isSeed (.fillU64 3) = false ∧ isDecimal (.fillU64 3) = false := by decide

/-- SeededFlag: a step that clears the flag (each of the two resets), and one that sets it. -/
theorem witness_flag :
    (∃ t, step (presenting [.reset] (ready zeros)) = .next t ∧ t.seeded = false) ∧
      (∃ t, step (presenting [.commandCut 0x0200000000000000#64 0] (ready zeros)) = .next t ∧ t.seeded = false) ∧
      ∃ t, step (presenting [.command 0x010000000000002A#64] fresh) = .next t ∧ t.seeded = true :=
  ⟨⟨_, rfl, rfl⟩, ⟨_, rfl, rfl⟩, ⟨_, rfl, rfl⟩⟩

/-- StepKeepsIndistinguishable: two different states without a generator, and a step from the first. -/
theorem witness_indistinguishable :
    Indistinguishable fresh { fresh with engine := fourDraws, resets := 7 } ∧ (∃ t, step fresh = .next t) ∧
      Indistinguishable (ready zeros) (withSlotZero 5#32 (ready zeros)) := by
  refine ⟨⟨rfl, rfl, rfl, nofun⟩, ⟨_, rfl⟩, rfl, rfl, rfl, fun _ => ⟨?_, rfl, rfl⟩⟩
  decide +kernel

/-- SameSeedSameRecords: two copies with different generators, given the same. -/
theorem witness_same_seed :
    SeedOk 42 ∧
      (presenting [.command (encode (.seed 42)), .command 0x0200000000000000#64] fresh).cmd =
        .command (encode (.seed 42)) :: [.command 0x0200000000000000#64] ∧
      (presenting [.command (encode (.seed 42)), .command 0x0200000000000000#64] (ready fourDraws)).cmd =
        .command (encode (.seed 42)) :: [.command 0x0200000000000000#64] ∧
      fresh.out = (ready fourDraws).out ∧ 1 ≤ 2 := by decide

end Sys2Proof.Tests
end

/-! ## 10_state.md: what a command and a step do to the flag and the generator -/

namespace Sys2Proof.Machine

open Sys2Proof.Claim

/-- An outcome answers one next state. -/
theorem next_unique {o : Host.Outcome State Fault Refusal} {t u : State} (ht : o = .next t) (hu : o = .next u) :
    t = u := Host.Outcome.next.inj (ht.symm.trans hu)

/-! ### Commands -/

theorem isSeed_eq_true_iff {i : Instr} : isSeed i = true ↔ ∃ z, i = .seed z := by
  cases i <;> simp [isSeed]

/-- Command `i` checks `seeded`, makes `n` draws and answers beats that are a function of the drawn values. -/
def DrawsExactly (i : Instr) (n : Nat) : Prop :=
  ∃ conv : List Word → List Record, (∀ ds, ∀ r ∈ conv ds, r.IsVal) ∧ ∀ s, exec i s =
    .next (ifSeeded s (answered s (after n s.engine) (conv (drawMany n s.engine).1)))

theorem DrawsExactly.of_sample {i : Instr} {value : ValueFn} {n : Nat} (h : ∃ conv, Converts value n conv)
    (hi : ∀ s, exec i s = .next (sampleWith value s)) : DrawsExactly i n := by
  obtain ⟨c, hc, hv⟩ := sampleWith_draws h
  exact ⟨c, hc, fun s => by rw [hi, hv]; rfl⟩

theorem DrawsExactly.of_fill {i : Instr} {value : ValueFn} {n k m : Nat} (h : ∃ conv, Converts value n conv)
    (hm : k * n = m) (hi : ∀ s, exec i s = .next (fillWith value k s)) : DrawsExactly i m := by
  obtain ⟨c, hc, hv⟩ := fillWith_draws h k
  exact ⟨c, hc, fun s => by rw [hi, hv, hm]; rfl⟩

/-- R94, R100: every command but SEED and the decimal ones makes its number of draws. -/
theorem exec_drawsExactly {i : Instr} (hs : isSeed i = false) (hd : isDecimal i = false) :
    DrawsExactly i (drawsOf i) := by
  cases i with
  | seed z => simp [isSeed] at hs
  | sampleDec => simp [isDecimal] at hd
  | fillDec n => simp [isDecimal] at hd
  | draw =>
    exact ⟨fun ds => [.val 32 (ds.headD 0)], fun _ _ hr => ⟨_, _, List.mem_singleton.mp hr⟩, fun _ => rfl⟩
  | sampleI8 => exact .of_sample (lowBits_converts 8) fun _ => rfl
  | sampleI16 => exact .of_sample (lowBits_converts 16) fun _ => rfl
  | sampleI32 => exact .of_sample (lowBits_converts 32) fun _ => rfl
  | sampleI64 => exact .of_sample twoDraws_converts fun _ => rfl
  | sampleU8 => exact .of_sample (lowBits_converts 8) fun _ => rfl
  | sampleU16 => exact .of_sample (lowBits_converts 16) fun _ => rfl
  | sampleU32 => exact .of_sample (lowBits_converts 32) fun _ => rfl
  | sampleU64 => exact .of_sample twoDraws_converts fun _ => rfl
  | sampleF32 => exact .of_sample (valueF32With_converts _) fun _ => rfl
  | sampleF64 => exact .of_sample valueF64_converts fun _ => rfl
  | sampleRaw size => exact .of_sample (valueRaw_converts size) fun _ => rfl
  | fillI8 n => exact .of_fill (lowBits_converts 8) (mul_one n) fun _ => rfl
  | fillI16 n => exact .of_fill (lowBits_converts 16) (mul_one n) fun _ => rfl
  | fillI32 n => exact .of_fill (lowBits_converts 32) (mul_one n) fun _ => rfl
  | fillI64 n => exact .of_fill twoDraws_converts (mul_comm n 2) fun _ => rfl
  | fillU8 n => exact .of_fill (lowBits_converts 8) (mul_one n) fun _ => rfl
  | fillU16 n => exact .of_fill (lowBits_converts 16) (mul_one n) fun _ => rfl
  | fillU32 n => exact .of_fill (lowBits_converts 32) (mul_one n) fun _ => rfl
  | fillU64 n => exact .of_fill twoDraws_converts (mul_comm n 2) fun _ => rfl
  | fillF32 n => exact .of_fill (valueF32With_converts _) (mul_one n) fun _ => rfl
  | fillF64 n => exact .of_fill valueF64_converts (mul_one n) fun _ => rfl
  | fillRaw size n => exact .of_fill (valueRaw_converts size) rfl fun _ => rfl

/-- R91, R111: the decimal commands raise UnsupportedType, and their number of draws is 0. -/
theorem exec_of_isDecimal {i : Instr} (hd : isDecimal i = true) :
    drawsOf i = 0 ∧ ∀ s, exec i s = .next (raise .unsupportedType s) := by
  cases i with
  | sampleDec => exact ⟨rfl, fun _ => rfl⟩
  | fillDec n => exact ⟨rfl, fun _ => rfl⟩
  | _ => simp [isDecimal] at hd

/-- R122: a command that checks `seeded` raises NotSeeded before the first SEED. -/
theorem needsSeed_of_not_seed_not_decimal {i : Instr} (hs : isSeed i = false) (hd : isDecimal i = false) :
    NeedsSeed i := by
  obtain ⟨c, -, h⟩ := exec_drawsExactly hs hd
  intro s h0
  rw [h, ifSeeded_of_not_seeded h0]; rfl

/-- R12, R15: what a command other than SEED keeps, and its engine: the one after its draws, or after none where it
raises an error. -/
theorem exec_frame {i : Instr} {s t : State} (hs : isSeed i = false) (h : exec i s = .next t) :
    t.seeded = s.seeded ∧ t.cmd = s.cmd ∧ t.resets = s.resets ∧
      t.engine = after (if s.seeded then drawsOf i else 0) s.engine := by
  by_cases hd : isDecimal i = true
  · obtain ⟨h0, hr⟩ := exec_of_isDecimal hd
    obtain rfl := next_unique (hr s) h
    simp [h0, after]
  · obtain ⟨c, -, hx⟩ := exec_drawsExactly hs (Bool.eq_false_iff.mpr hd)
    obtain rfl := next_unique (hx s) h
    cases hf : s.seeded with
    | true => simp [hf, answered]
    | false => simp [hf, after]

/-! ### Words and steps -/

theorem sampleOf_ne_seed (type size : Nat) (z : Int) : sampleOf type size ≠ .ok (.seed z) := by
  unfold sampleOf; split <;> simp

theorem fillOf_ne_seed (type size n : Nat) (z : Int) : fillOf type size n ≠ .ok (.seed z) := by
  unfold fillOf; split <;> simp

/-- R44: the seed of a word is its IMM field as a signed number, so it is one of the 2^32 seeds. -/
theorem seedOk_of_decode {w : Command} {z : Int} (h : decode w = .ok (.seed z)) : SeedOk z := by
  have hz : z = (immField w).toInt := by
    unfold decode decodeWith decodeFields at h
    split_ifs at h
    · exact (Instr.seed.inj (Except.ok.inj h)).symm
    · cases Except.ok.inj h
    · exact absurd h (sampleOf_ne_seed _ _ z)
    · exact absurd h (fillOf_ne_seed _ _ _ z)
  exact hz ▸ toInt_bounds (immField w)

/-- What running a word does to the queue, the flag and the engine: a SEED sets the flag and constructs, every other
word keeps the flag and makes some draws, none where it raises an error. -/
theorem runCommand_generator {w : Command} {s t : State} (h : runCommand w s = .next t) :
    t.cmd = s.cmd ∧
      ((∃ z, decode w = .ok (.seed z) ∧ t.seeded = true ∧ t.engine = seedEngine z s.engine) ∨
        (t.seeded = s.seeded ∧ ∃ n, t.engine = after n s.engine)) := by
  unfold runCommand at h
  split at h
  case h_1 i hd =>
    cases hi : isSeed i with
    | true =>
      obtain ⟨z, rfl⟩ := isSeed_eq_true_iff.mp hi
      obtain rfl := next_unique (exec_seed z s) h
      exact ⟨rfl, .inl ⟨z, hd, rfl, rfl⟩⟩
    | false =>
      obtain ⟨hf, hc, -, he⟩ := exec_frame hi h
      exact ⟨hc, .inr ⟨hf, _, he⟩⟩
  case h_2 k hd =>
    obtain rfl := Host.Outcome.next.inj h
    exact ⟨rfl, .inr ⟨rfl, 0, rfl⟩⟩

/-- A command cut by a reset leaves the block reset, with some beats more in the stream (R148). -/
theorem cutCommand_next {w : Command} {k : Nat} {s t : State} (h : cutCommand w k s = .next t) :
    ∃ u, runCommand w s = .next u ∧ t = resetBlock (emit ((valueBeats s.out u.out).take k) s) := by
  obtain ⟨u, hu⟩ := runCommand_next w s
  simp only [cutCommand, hu] at h
  exact ⟨u, hu, (Host.Outcome.next.inj h).symm⟩

/-- What a step does to the flag and the engine: it runs a SEED; or it keeps the flag and makes some draws; or it serves
one of the two resets and clears the flag. -/
theorem step_generator {s t : State} (h : step s = .next t) :
    (∃ w z rest, s.cmd = .command w :: rest ∧ decode w = .ok (.seed z) ∧ t.seeded = true ∧
      t.engine = seedEngine z s.engine) ∨
    (t.seeded = s.seeded ∧ ∃ n, t.engine = after n s.engine) ∨
    (t.seeded = false ∧ ∃ rest, s.cmd = .reset :: rest ∨ ∃ w k, s.cmd = .commandCut w k :: rest) := by
  unfold step at h
  split at h
  case h_1 =>
    obtain rfl := Host.Outcome.next.inj h
    exact .inr (.inl ⟨rfl, 0, rfl⟩)
  case h_2 event rest hc =>
    cases event with
    | command w =>
      obtain ⟨-, ⟨z, hd, hf, he⟩ | hkeep⟩ := runCommand_generator h
      · exact .inl ⟨w, z, rest, hc, hd, hf, he⟩
      · exact .inr (.inl hkeep)
    | reset =>
      obtain rfl := Host.Outcome.next.inj h
      exact .inr (.inr ⟨rfl, rest, .inl hc⟩)
    | commandCut w k =>
      obtain ⟨u, -, rfl⟩ := cutCommand_next h
      exact .inr (.inr ⟨rfl, rest, .inr ⟨w, k, hc⟩⟩)

/-- A property of the generator that every SEED establishes and every draw keeps holds after every step whenever
`seeded = 1`, if it does before. -/
theorem step_keeps_generator {P : Engine → Prop} (hseed : ∀ z e, SeedOk z → P (seedEngine z e))
    (hdraw : ∀ n e, P e → P (after n e)) {s t : State} (hs : s.seeded = true → P s.engine)
    (h : step s = .next t) : t.seeded = true → P t.engine := by
  intro ht
  obtain ⟨w, z, rest, -, hd, -, he⟩ | ⟨hf, n, he⟩ | ⟨hf, -⟩ := step_generator h
  · exact he ▸ hseed z _ (seedOk_of_decode hd)
  · exact he ▸ hdraw n _ (hs (hf ▸ ht))
  · simp [hf] at ht

/-! ### The cursor lag and the slot range -/

/-- R19, R65. -/
theorem seedEngine_cursorLag (z : Int) (e : Engine) : CursorLag (seedEngine z e) := by
  simp [CursorLag]

/-- Settles O52: SEED leaves the cursors 21 apart and every draw keeps them so. -/
theorem stepKeepsCursorLag : Obligations.StepKeepsCursorLag := fun _ _ hs h =>
  step_keeps_generator (P := CursorLag) (fun z e _ => seedEngine_cursorLag z e)
    (fun n _ he => drawMany_cursorLag n he) hs h

/-- R75 (b): from a start value that is not negative the array is in range after step 3. -/
theorem seedFill_slotsInRange {z : Int} (hz : SeedOk z) (h0 : 0 ≤ (seedStart z).toInt) (x : Vector Word 56) :
    SlotsInRange (seedFill z x) := by
  intro i hi
  by_cases h55 : i = 55
  · have hv := seedStart_ok hz
    rw [h55, readSlot_seedFill_55]
    simp only [InRange, StartOk, maxInt] at *; omega
  · have h55' : i.val ≠ 55 := fun e => h55 (Fin.ext e)
    exact seedFill_inRange hz x i (fin_pos hi) (by have := i.isLt; omega)

/-- R75 (b), (c): a negative start value that is not one of the four leaves the array in range after the first pass. -/
theorem firstPass_slotsInRange {z : Int} (hz : SeedOk z) (hneg : (seedStart z).toInt < 0)
    (hr : (seedStart z).toInt ∉ repairedStarts) (x : Vector Word 56) : SlotsInRange (mixPass (seedFill z x)) :=
  mixPass_inRange_of (seedFill_inRange hz x) (firstPass_slot24 hz hneg hr x) (firstPass_slot55 hz hneg hr x)

/-- Steps 2 and 3 of SEED see the seed through `mj` only (R62, R63). -/
theorem seedFill_sameUsed_fillFrom (z : Int) (x : Vector Word 56) :
    SameUsed (seedFill z x) (fillFrom (seedStart z).toInt) := by
  rw [fillFrom, wrap32_toInt_self, ← seedFill]
  exact seedFill_sameUsed z x _

theorem SlotsInRange.of_sameUsed {x y : Vector Word 56} (hy : SlotsInRange y) (h : SameUsed x y) : SlotsInRange x :=
  fun i hi => h i hi ▸ hy i hi

/-- R75 (c): the second pass repairs the four start values the first one leaves out of range. -/
theorem secondPass_slotsInRange {z : Int} (hr : (seedStart z).toInt ∈ repairedStarts) (x : Vector Word 56) :
    SlotsInRange (mixPasses 2 (seedFill z x)) := by
  have hfix : SlotsInRange (mixPasses 2 (fillFrom (seedStart z).toInt)) := by
    generalize (seedStart z).toInt = v at hr
    simp only [repairedStarts, List.mem_cons, List.not_mem_nil, or_false] at hr
    obtain rfl | rfl | rfl | rfl := hr
    · exact repaired_614279151
    · exact repaired_1235228408
    · exact repaired_1235545220
    · exact repaired_1333158113
  exact hfix.of_sameUsed (mixPasses_sameUsed 2 (seedFill_sameUsed_fillFrom z x))

theorem mixPasses_two (x : Vector Word 56) : mixPasses 2 x = mixPass (mixPass x) := by
  simp only [mixPasses]

/-- R75 (a): SEED of any seed ends with every used slot in range. -/
theorem seedEngine_slotsInRange {z : Int} (hz : SeedOk z) (e : Engine) : SlotsInRange (seedEngine z e).x := by
  have two : SlotsInRange (mixPasses 2 (seedFill z e.x)) := by
    by_cases h0 : 0 ≤ (seedStart z).toInt
    · exact mixPasses_inRange 2 (seedFill_slotsInRange hz h0 e.x)
    by_cases hr : (seedStart z).toInt ∈ repairedStarts
    · exact secondPass_slotsInRange hr e.x
    · rw [mixPasses_two]
      exact mixPass_inRange (firstPass_slotsInRange hz (by omega) hr e.x)
  rw [seedEngine_x, mixPasses_four]
  exact mixPasses_inRange 2 two

/-- Settles O53: SEED of any seed ends in range (R75) and every draw keeps the range (R20). -/
theorem stepKeepsSlotRange : Obligations.StepKeepsSlotRange := fun _ _ hs h =>
  step_keeps_generator (P := fun e => SlotsInRange e.x) (fun _ e hz => seedEngine_slotsInRange hz e)
    (fun n _ he => drawMany_slotsInRange n he) hs h

/-- Settles O16: there is no generator after reset. -/
theorem invariantsAtReset : Obligations.InvariantsAtReset := by
  have h0 : State.reset.seeded = false := rfl
  exact ⟨fun h => by simp [h0] at h, fun h => by simp [h0] at h⟩

/-! ### What a host cannot see -/

/-- R60, R67: SEED constructs the same generator whatever the engine held. -/
theorem seedEngine_sameGenerator (z : Int) (e f : Engine) : SameGenerator (seedEngine z e) (seedEngine z f) :=
  ⟨by rw [seedEngine_x, seedEngine_x]; exact mixPasses_sameUsed 4 (seedFill_sameUsed z e.x f.x), by simp, by simp⟩

/-- R60: two blocks that have just constructed the same generator cannot be told apart by it. -/
theorem constructed_indistinguishable {s s' : State} {e f : Engine} (hc : s.cmd = s'.cmd) (ho : s.out = s'.out)
    (h : SameGenerator e f) :
    Indistinguishable (done .ok (setSeeded { s with engine := e })) (done .ok (setSeeded { s' with engine := f })) :=
  ⟨rfl, hc, by simp [ho], fun _ => h⟩

/-- Presenting a word to two states that cannot be told apart leads to two such states again. -/
theorem runCommand_indistinguishable (w : Command) {s s' t : State} (hi : Indistinguishable s s')
    (h : runCommand w s = .next t) : ∃ t', runCommand w s' = .next t' ∧ Indistinguishable t t' := by
  obtain ⟨hf, hc, ho, hg⟩ := hi
  obtain ⟨z, hw⟩ | ⟨k, hw⟩ | ⟨n, c, -, hw⟩ := runCommand_cases w
  · obtain rfl := next_unique (hw s) h
    exact ⟨_, hw s', constructed_indistinguishable hc ho (seedEngine_sameGenerator z _ _)⟩
  · obtain rfl := next_unique (hw s) h
    exact ⟨_, hw s', hf, hc, by simp [ho], hg⟩
  · obtain rfl := next_unique (hw s) h
    refine ⟨_, hw s', ?_⟩
    obtain hs | hs := Bool.eq_false_or_eq_true s.seeded
    · obtain ⟨hv, hg'⟩ := (hg hs).drawMany n
      rw [ifSeeded_of_seeded hs, ifSeeded_of_seeded (hf ▸ hs)]
      exact ⟨hf, hc, by simp [ho, hv], fun _ => hg'⟩
    · rw [ifSeeded_of_not_seeded hs, ifSeeded_of_not_seeded (hf ▸ hs)]
      exact ⟨hf, hc, by simp [ho], hg⟩

/-- After a reset only the two ports can be seen. -/
theorem resetBlock_indistinguishable {s s' : State} (hc : s.cmd = s'.cmd) (ho : s.out = s'.out) :
    Indistinguishable (resetBlock s) (resetBlock s') :=
  ⟨rfl, hc, ho, by simp⟩

theorem cutCommand_indistinguishable (w : Command) (k : Nat) {s s' t : State} (hi : Indistinguishable s s')
    (h : cutCommand w k s = .next t) : ∃ t', cutCommand w k s' = .next t' ∧ Indistinguishable t t' := by
  obtain ⟨u, hu, rfl⟩ := cutCommand_next h
  obtain ⟨u', hu', -, -, ho', -⟩ := runCommand_indistinguishable w hi hu
  obtain ⟨-, hc, ho, -⟩ := hi
  exact ⟨resetBlock (emit ((valueBeats s'.out u'.out).take k) s'), by simp only [cutCommand, hu'],
    resetBlock_indistinguishable hc (by simp [ho, ho'])⟩

/-- Settles O54, by the three things a host can do. -/
theorem stepKeepsIndistinguishable : Obligations.StepKeepsIndistinguishable := by
  intro s s' t hi h
  have ⟨hf, hc, ho, hg⟩ := hi
  cases he : s'.cmd with
  | nil =>
    simp only [step, hc, he] at h
    obtain rfl := Host.Outcome.next.inj h
    exact ⟨s', by simp only [step, he], hi⟩
  | cons event rest =>
    have hi' : Indistinguishable { s with cmd := rest } { s' with cmd := rest } := ⟨hf, rfl, ho, hg⟩
    simp only [step, hc, he] at h ⊢
    cases event with
    | command w => exact runCommand_indistinguishable w hi' h
    | reset =>
      obtain rfl := Host.Outcome.next.inj h
      exact ⟨_, rfl, resetBlock_indistinguishable rfl ho⟩
    | commandCut w k => exact cutCommand_indistinguishable w k hi' h

/-! ### The flag -/

theorem errorStatus_ne_ok (k : ErrorKind) : errorStatus k ≠ .ok := by cases k <;> simp [errorStatus]

/-- R122, R142: without a generator every word but a SEED raises an error. -/
theorem runCommand_of_not_seeded {w : Command} {s : State} (h0 : s.seeded = false)
    (hw : ∀ z, decode w ≠ .ok (.seed z)) : ∃ k, runCommand w s = .next (raise k s) := by
  unfold runCommand
  cases hd : decode w with
  | error k => exact ⟨k, rfl⟩
  | ok i =>
    have hi : isSeed i = false := Bool.eq_false_iff.mpr fun hi => by
      obtain ⟨z, rfl⟩ := isSeed_eq_true_iff.mp hi
      exact hw z hd
    by_cases hdec : isDecimal i = true
    · exact ⟨_, (exec_of_isDecimal hdec).2 s⟩
    · exact ⟨.notSeeded, needsSeed_of_not_seed_not_decimal hi (Bool.eq_false_iff.mpr hdec) s h0⟩

/-- Settles O15: `State.reset` by its definition, and an error is one completion record. -/
theorem resetState : Obligations.ResetState := by
  refine ⟨rfl, rfl, rfl, fun w s h0 hw => ?_⟩
  obtain ⟨k, hk⟩ := runCommand_of_not_seeded h0 hw
  exact ⟨errorStatus k, errorStatus_ne_ok k, hk⟩

/-- R15: only a reset, alone or during a command, clears `seeded`. -/
theorem step_clears_seeded {s t : State} (h : step s = .next t) (hs : s.seeded = true) (ht : t.seeded = false) :
    ∃ rest, s.cmd = .reset :: rest ∨ ∃ w k, s.cmd = .commandCut w k :: rest := by
  obtain ⟨_, _, _, -, -, hf, -⟩ | ⟨hf, -⟩ | ⟨-, hc⟩ := step_generator h
  · simp [hf] at ht
  · simp [hf, hs] at ht
  · exact hc

/-- R15: only a word that decodes to SEED sets `seeded`. -/
theorem step_sets_seeded {s t : State} (h : step s = .next t) (hs : s.seeded = false) (ht : t.seeded = true) :
    ∃ w z rest, s.cmd = .command w :: rest ∧ decode w = .ok (.seed z) := by
  obtain ⟨w, z, rest, hc, hd, -⟩ | ⟨hf, -⟩ | ⟨hf, -⟩ := step_generator h
  · exact ⟨w, z, rest, hc, hd⟩
  · simp [hf, hs] at ht
  · simp [hf] at ht

/-- Settles O51, by what a step does to the flag. -/
theorem seededFlag : Obligations.SeededFlag :=
  ⟨rfl, fun z s => ⟨_, exec_seed z s, rfl⟩, fun _ _ => step_clears_seeded, fun _ _ => step_sets_seeded,
    fun _ => needsSeed_of_not_seed_not_decimal⟩

/-! ### Cursors and slots -/

theorem after_succ (k : Nat) (e : Engine) : after (k + 1) e = (draw (after k e)).2 := drawMany_succ_engine k e

/-- R19: after the `k`-th draw the cursors stand `k` steps on from 0 and 21. -/
theorem after_seedEngine_cursors (z : Int) (e : Engine) {k : Nat} (hk : 1 ≤ k) :
    (after k (seedEngine z e)).cursorA.val = (k - 1) % 55 + 1 ∧
      (after k (seedEngine z e)).cursorB.val = (k + 20) % 55 + 1 := by
  induction k, hk using Nat.le_induction with
  | base => simp [after, drawMany_one, stepCursor_val]
  | succ k hk ih =>
    rw [after_succ, draw_cursorA, draw_cursorB, stepCursor_val, stepCursor_val]
    omega

/-- Settles O26: the lag after SEED and after every draw, and the closed forms of R19. -/
theorem cursorLagAndPositions : Obligations.CursorLagAndPositions :=
  ⟨fun _ => draw_cursorLag, fun z e => ⟨seedEngine_cursorLag z e, fun _ => after_seedEngine_cursors z e⟩⟩

/-- Draws leave every slot that is not at the stepped `cursorA` of one of them (R12, R68). -/
theorem readSlot_after_of_unvisited (n : Nat) (e : Engine) (j : Fin 56)
    (h : ∀ m, m < n → (after (m + 1) e).cursorA ≠ j) : readSlot (after n e).x j = readSlot e.x j := by
  induction n with
  | zero => rfl
  | succ n ih =>
    have hn := h n n.lt_succ_self
    rw [after_succ, draw_cursorA] at hn
    rw [after_succ, readSlot_draw, if_neg hn.symm]
    exact ih fun m hm => h m (by omega)

/-- Settles O30: a command other than SEED makes its draws, or none, and a draw writes one slot. -/
theorem frameOfDrawingCommands : Obligations.FrameOfDrawingCommands := by
  intro i s t hi h
  obtain ⟨hf, hc, hr, he⟩ := exec_frame hi h
  refine ⟨hf, hc, hr, fun j hj => ?_⟩
  rw [he]
  exact readSlot_after_of_unvisited _ _ j fun m hm => hj m (by split at hm <;> omega)

/-! ### Slot 0 -/

/-- No draw writes slot 0 (R11). -/
theorem readSlot_after_zero (n : Nat) (e : Engine) : readSlot (after n e).x 0 = readSlot e.x 0 := by
  refine readSlot_after_of_unvisited n e 0 fun m _ => ?_
  rw [after_succ]
  exact stepCursor_ne_zero _

/-- SEED does not write slot 0 (R11). -/
theorem readSlot_seedEngine_zero (z : Int) (e : Engine) : readSlot (seedEngine z e).x 0 = readSlot e.x 0 := by
  rw [seedEngine_x, readSlot_mixPasses_zero, readSlot_seedFill_zero]

/-- The same engine with another content of slot 0. -/
def engineWithSlotZero (v : Word) (e : Engine) : Engine := { e with x := writeSlot e.x 0 v }

theorem withSlotZero_engine (v : Word) (s : State) :
    (withSlotZero v s).engine = engineWithSlotZero v s.engine := rfl

theorem withSlotZero_constructed (v : Word) (s : State) (e : Engine) :
    withSlotZero v (done .ok (setSeeded { s with engine := e })) =
      done .ok (setSeeded { withSlotZero v s with engine := engineWithSlotZero v e }) := rfl

theorem engineWithSlotZero_sameGenerator (v : Word) (e : Engine) : SameGenerator (engineWithSlotZero v e) e :=
  ⟨fun _ hi => readSlot_writeSlot_of_ne _ _ hi, rfl, rfl⟩

theorem eq_engineWithSlotZero {v : Word} {e f : Engine} (h : SameGenerator f e) (h0 : readSlot f.x 0 = v) :
    f = engineWithSlotZero v e := by
  obtain ⟨hx, ha, hb⟩ := h
  obtain ⟨x, a, b⟩ := f
  have hw : x = writeSlot e.x 0 v := slots_ext fun i => by
    rw [readSlot_writeSlot]
    split
    case isTrue hi => exact hi ▸ h0
    case isFalse hi => exact hx i hi
  subst hw ha hb
  rfl

theorem seedEngine_engineWithSlotZero (z : Int) (v : Word) (e : Engine) :
    seedEngine z (engineWithSlotZero v e) = engineWithSlotZero v (seedEngine z e) :=
  eq_engineWithSlotZero (seedEngine_sameGenerator z _ _) <| by
    rw [readSlot_seedEngine_zero]; exact readSlot_writeSlot_self _ _ _

theorem drawMany_engineWithSlotZero (n : Nat) (v : Word) (e : Engine) :
    drawMany n (engineWithSlotZero v e) = ((drawMany n e).1, engineWithSlotZero v (drawMany n e).2) := by
  obtain ⟨hv, hg⟩ := (engineWithSlotZero_sameGenerator v e).drawMany n
  refine Prod.ext hv (eq_engineWithSlotZero hg ?_)
  exact (readSlot_after_zero n _).trans (readSlot_writeSlot_self _ _ _)

/-- No command writes slot 0. -/
theorem exec_readSlot_zero {i : Instr} {s t : State} (h : exec i s = .next t) :
    readSlot t.engine.x 0 = readSlot s.engine.x 0 := by
  cases hi : isSeed i with
  | true =>
    obtain ⟨z, rfl⟩ := isSeed_eq_true_iff.mp hi
    obtain rfl := next_unique (exec_seed z s) h
    exact readSlot_seedEngine_zero z s.engine
  | false =>
    obtain ⟨-, -, -, he⟩ := exec_frame hi h
    rw [he]; exact readSlot_after_zero _ _

/-- No command reads slot 0. -/
theorem exec_withSlotZero {i : Instr} {s t : State} (h : exec i s = .next t) (v : Word) :
    exec i (withSlotZero v s) = .next (withSlotZero v t) := by
  obtain ⟨z, rfl⟩ | hr | ⟨n, c, -, hx⟩ := exec_cases i
  · obtain rfl := next_unique (exec_seed z s) h
    rw [exec_seed, withSlotZero_constructed, ← seedEngine_engineWithSlotZero]; rfl
  · obtain rfl := next_unique (hr s) h
    exact hr _
  · obtain rfl := next_unique (hx s) h
    obtain hs | hs := Bool.eq_false_or_eq_true s.seeded
    · have hs' : (withSlotZero v s).seeded = true := hs
      rw [hx, ifSeeded_of_seeded hs, ifSeeded_of_seeded hs', withSlotZero_engine, drawMany_engineWithSlotZero]; rfl
    · have hs' : (withSlotZero v s).seeded = false := hs
      rw [hx, ifSeeded_of_not_seeded hs, ifSeeded_of_not_seeded hs']; rfl

/-- Settles O29: neither SEED nor a draw reads or writes slot 0. -/
theorem slotZeroUntouched : Obligations.SlotZeroUntouched := fun _ _ _ h =>
  ⟨exec_readSlot_zero h, exec_withSlotZero h⟩

/-! ### Small seeds -/

theorem slotInt_of_lt {x : Vector Word 56} {i : Nat} (h : i < 56) : slotInt x i = (readSlot x ⟨i, h⟩).toInt :=
  dif_pos h

/-- Where the exact difference fits, the adjusted one is what exact arithmetic gives (R63, R64). -/
theorem addMaxIfNeg_sub32_exact {a b : Word} (h : minInt ≤ a.toInt - b.toInt ∧ a.toInt - b.toInt ≤ maxInt) :
    (addMaxIfNeg (sub32 a b)).toInt = adjustExact (a.toInt - b.toInt) := by
  rw [addMaxIfNeg_toInt, sub32_toInt_of_fits h]; rfl

/-- No subtraction of the walk wraps (R63 (c), (d)). -/
theorem walkSeq_sub_fits {v : Word} (h : StartOk v) (n : Nat) :
    minInt ≤ (walkSeq v (wrap32 1) n).toInt - (walkSeq v (wrap32 1) (n + 1)).toInt ∧
      (walkSeq v (wrap32 1) n).toInt - (walkSeq v (wrap32 1) (n + 1)).toInt ≤ maxInt := by
  cases n with
  | zero =>
    have h1 : (wrap32 1).toInt = 1 := wrap32_toInt_of_fits (by decide)
    simp only [walkSeq, h1, minInt, maxInt]; omega
  | succ n => exact (walkSeq_inRange h n).1.sub_fits (walkSeq_inRange h n).2

/-- The walk's values are those of exact arithmetic (R63). -/
theorem walkSeq_exact {v : Word} (h : StartOk v) (n : Nat) :
    (walkSeq v (wrap32 1) n).toInt = walkValue adjustExact v.toInt n := by
  induction n using Nat.twoStepInduction with
  | zero => rfl
  | one => exact wrap32_toInt_of_fits (by decide)
  | more n ih0 ih1 =>
    rw [walkSeq, addMaxIfNeg_sub32_exact (walkSeq_sub_fits h n), ih0, ih1, walkValue]

/-- R61, R62: `mj` after step 2 is exact. -/
theorem seedStart_exact {z : Int} (h : SeedOk z) : (seedStart z).toInt = startInt z := seedStart_toInt h

/-- R62, R63: steps 2 and 3 are what exact arithmetic gives, for every seed. -/
theorem seedFill_walkedExact {z : Int} (h : SeedOk z) (x : Vector Word 56) :
    Walked adjustExact (startInt z) (seedFill z x) := by
  rw [← seedStart_exact h]
  refine ⟨?_, fun k h1 h2 => ?_⟩
  · rw [slotInt_of_lt (by omega)]; exact congrArg _ (readSlot_seedFill_55 z x)
  · rw [slotInt_of_lt (by omega), readSlot_seedFill z x k h1 h2, walkSeq_exact (seedStart_ok h)]

/-- R64: a pass over slots in range is what exact arithmetic gives. -/
theorem mixPass_mixedExact {x : Vector Word 56} (h : SlotsInRange x) : Mixed adjustExact x (mixPass x) := by
  intro i h1 h2
  have hi : i < 56 := by omega
  rw [slotInt_of_lt hi, slotInt_of_lt hi]
  split
  case isTrue h24 =>
    rw [slotInt_of_lt (by omega), readSlot_mixPass_low x ⟨i, hi⟩ h1 h24, addMaxIfNeg_sub32_exact]
    exact (h _ (fin_ne_zero h1)).sub_fits (h _ (fin_ne_zero (by simp only; omega)))
  case isFalse h24 =>
    rw [slotInt_of_lt (by omega), readSlot_mixPass_high x ⟨i, hi⟩ (by simp only; omega), addMaxIfNeg_sub32_exact]
    exact (h _ (fin_ne_zero h1)).sub_fits (mixPass_inRange h _ (fin_ne_zero (by simp only; omega)))

/-- R75 (b): a seed of magnitude at most MSEED is a seed, and its `mj` is not negative. -/
theorem smallSeed_start_nonneg {z : Int} (hz : |z| ≤ 161803398) : SeedOk z ∧ 0 ≤ (seedStart z).toInt := by
  obtain ⟨h1, h2⟩ := abs_le.mp hz
  have hok : SeedOk z := ⟨by omega, by omega⟩
  refine ⟨hok, ?_⟩
  rw [seedStart_exact hok, startInt, subtrahendInt, if_neg (by omega)]; omega

/-- Settles O22: the array is in range after step 3, and a pass keeps that and does not wrap. -/
theorem smallSeedsNeverWrap : Obligations.SmallSeedsNeverWrap := by
  intro z s hz
  obtain ⟨hok, h0⟩ := smallSeed_start_nonneg hz
  have r0 := seedFill_slotsInRange hok h0 s.engine.x
  have r1 := mixPass_inRange r0
  have r2 := mixPass_inRange r1
  have r3 := mixPass_inRange r2
  have hx : (seedEngine z s.engine).x = mixPass (mixPass (mixPass (mixPass (seedFill z s.engine.x)))) := by
    rw [seedEngine_x, mixPasses_four, mixPasses_two, mixPasses_two]
  refine ⟨_, _, _, _, _, exec_seed z s, seedFill_walkedExact hok _, mixPass_mixedExact r0, mixPass_mixedExact r1,
    mixPass_mixedExact r2, ?_, r0, r1, r2, r3, ?_⟩
  · rw [done_engine, setSeeded_engine, hx]; exact mixPass_mixedExact r3
  · rw [done_engine, setSeeded_engine, hx]; exact mixPass_inRange r3

end Sys2Proof.Machine

/-! ## 20_memory.md: a step on a presented word -/

namespace Sys2Proof.Machine

/-- Settles O8: the block takes the oldest word off the queue (R53) and runs what it decodes to (R36). -/
theorem stepExecutesCommand : Obligations.StepExecutesCommand :=
  fun _ _ _ _ hc hd => step_of_decode_ok hc hd

end Sys2Proof.Machine

/-! ## 30_encoding.md: the command word, its decoder, what a step and a command emit -/

namespace Sys2Proof.Machine

open Sys2Proof.Claim
open Sys2Proof.Laws.CommandFields (opc type usesSize usesImm Statement)

/-! ### The decoder, one lemma per line of R48 -/

theorem decode_of_opc_seed {w : Command} (h : opcField w = 0x01#8) :
    decode w = if typeField w ≠ 0 ∨ sizeField w ≠ 0 then .error .illegalCommand
      else .ok (.seed (immField w).toInt) := by
  simp [decode, decodeWith, decodeFields, h]

theorem decode_of_opc_draw {w : Command} (h : opcField w = 0x02#8) :
    decode w = if typeField w ≠ 0 ∨ sizeField w ≠ 0 ∨ immField w ≠ 0 then .error .illegalCommand else .ok .draw := by
  simp [decode, decodeWith, decodeFields, h]

theorem decode_of_opc_sample {w : Command} (h : opcField w = 0x03#8) :
    decode w =
      if 0x0B < (typeField w).toNat then .error .unsupportedType
      else if typeField w = 0x0A#8 ∧ (sizeField w ≠ 0 ∨ immField w ≠ 0) then .error .unsupportedType
      else if (typeField w ≠ 0x0B#8 ∧ sizeField w ≠ 0) ∨ immField w ≠ 0 then .error .illegalCommand
      else sampleOf (typeField w).toNat (sizeField w).toNat := by
  simp [decode, decodeWith, decodeFields, h, Config.decSupported, ite_or]

theorem decode_of_opc_fill {w : Command} (h : opcField w = 0x04#8) :
    decode w =
      if 0x0B < (typeField w).toNat then .error .unsupportedType
      else if typeField w = 0x0A#8 ∧ sizeField w ≠ 0 then .error .unsupportedType
      else if typeField w ≠ 0x0B#8 ∧ sizeField w ≠ 0 then .error .illegalCommand
      else fillOf (typeField w).toNat (sizeField w).toNat (immField w).toNat := by
  simp [decode, decodeWith, decodeFields, h, Config.decSupported]

theorem decode_of_badOpc {w : Command} (h : BadOpc w) : decode w = .error .illegalCommand := by
  obtain ⟨h1, h2, h3, h4⟩ := h
  simp [decode, decodeWith, decodeFields, h1, h2, h3, h4]

theorem opc_cases (w : Command) :
    BadOpc w ∨ opcField w = 0x01#8 ∨ opcField w = 0x02#8 ∨ opcField w = 0x03#8 ∨ opcField w = 0x04#8 := by
  unfold BadOpc; tauto

/-- A SAMPLE word whose must-be-zero fields are 0 is the SAMPLE of its TYPE. -/
theorem decode_sample {w : Command} (ho : opcField w = 0x03#8) (ht : (typeField w).toNat ≤ 0x0B)
    (hz : typeField w = 0x0B#8 ∨ sizeField w = 0) (hm : immField w = 0) :
    decode w = sampleOf (typeField w).toNat (sizeField w).toNat := by
  rw [decode_of_opc_sample ho, if_neg (by omega)]
  obtain hB | h0 := hz
  · simp [hB, hm]
  · simp [h0, hm]

/-- A FILL word whose must-be-zero field is 0 is the FILL of its TYPE. -/
theorem decode_fill {w : Command} (ho : opcField w = 0x04#8) (ht : (typeField w).toNat ≤ 0x0B)
    (hz : typeField w = 0x0B#8 ∨ sizeField w = 0) :
    decode w = fillOf (typeField w).toNat (sizeField w).toNat (immField w).toNat := by
  rw [decode_of_opc_fill ho, if_neg (by omega)]
  obtain hB | h0 := hz
  · simp [hB]
  · simp [h0]

/-- The words that decode, and what they decode to. -/
theorem decode_ok_cases {w : Command} {i : Instr} (h : decode w = .ok i) :
    (opcField w = 0x01#8 ∧ typeField w = 0 ∧ sizeField w = 0 ∧ i = .seed (immField w).toInt) ∨
    (opcField w = 0x02#8 ∧ typeField w = 0 ∧ sizeField w = 0 ∧ immField w = 0 ∧ i = .draw) ∨
    (opcField w = 0x03#8 ∧ (typeField w = 0x0B#8 ∨ sizeField w = 0) ∧ immField w = 0 ∧
      sampleOf (typeField w).toNat (sizeField w).toNat = .ok i) ∨
    (opcField w = 0x04#8 ∧ (typeField w = 0x0B#8 ∨ sizeField w = 0) ∧
      fillOf (typeField w).toNat (sizeField w).toNat (immField w).toNat = .ok i) := by
  obtain ho | ho | ho | ho | ho := opc_cases w
  · simp [decode_of_badOpc ho] at h
  · rw [decode_of_opc_seed ho] at h
    split_ifs at h with hz
    obtain ⟨ht, hs⟩ := not_or.mp hz
    exact .inl ⟨ho, not_not.mp ht, not_not.mp hs, (Except.ok.inj h).symm⟩
  · rw [decode_of_opc_draw ho] at h
    split_ifs at h with hz
    simp only [not_or, not_not] at hz
    obtain ⟨ht, hs, hm⟩ := hz
    exact .inr (.inl ⟨ho, ht, hs, hm, (Except.ok.inj h).symm⟩)
  · rw [decode_of_opc_sample ho] at h
    split_ifs at h with _ _ hz
    rw [not_or, not_not, not_and_or, not_not, not_not] at hz
    obtain ⟨hs, hm⟩ := hz
    exact .inr (.inr (.inl ⟨ho, hs, hm, h⟩))
  · rw [decode_of_opc_fill ho] at h
    split_ifs at h with _ _ hz
    rw [not_and_or, not_not, not_not] at hz
    exact .inr (.inr (.inr ⟨ho, hz, h⟩))

/-! ### A command and its word -/

theorem decode_sampleWord {t : BitVec 8} (ht : t.toNat ≤ 0x0B) :
    decode (mkCommand 0x03#8 t 0#16 0#32) = sampleOf t.toNat 0 := by
  rw [decode_sample] <;> simp [ht]

theorem decode_fillWord {t : BitVec 8} {n : Nat} (ht : t.toNat ≤ 0x0B) (hn : CountOk n) :
    decode (mkCommand 0x04#8 t 0#16 (BitVec.ofNat 32 n)) = fillOf t.toNat 0 n := by
  rw [decode_fill] <;> simp [ht, toNat_ofNat_count hn, -BitVec.toNat_ofNat]

theorem decode_seedWord {z : Int} (hz : SeedOk z) :
    decode (mkCommand 0x01#8 0x00#8 0#16 (BitVec.ofInt 32 z)) = .ok (.seed z) := by
  rw [decode_of_opc_seed (by simp)]
  simp [toInt_ofInt_seed hz, -BitVec.toInt_ofInt]

theorem decode_rawSampleWord {size : Nat} (hs : SizeOk size) :
    decode (mkCommand 0x03#8 0x0B#8 (BitVec.ofNat 16 size) 0#32) = .ok (.sampleRaw size) := by
  rw [decode_sample] <;> simp [toNat_ofNat_size hs, sampleOf, -BitVec.toNat_ofNat]

/-- R45: FILL.RAW has no must-be-zero field. -/
theorem decode_rawFill (size : BitVec 16) (imm : BitVec 32) :
    decode (mkCommand 0x04#8 0x0B#8 size imm) = .ok (.fillRaw size.toNat imm.toNat) := by
  rw [decode_fill] <;> simp [fillOf]

/-- Settles O2, by the OPC of the command's word. -/
theorem decodeOfEncode : Obligations.DecodeOfEncode := by
  intro i h
  cases i with
  | seed z => exact decode_seedWord (of_decide_eq_true h)
  | draw => rfl
  | sampleI8 => exact decode_sampleWord (t := 0x00#8) (by decide)
  | sampleI16 => exact decode_sampleWord (t := 0x01#8) (by decide)
  | sampleI32 => exact decode_sampleWord (t := 0x02#8) (by decide)
  | sampleI64 => exact decode_sampleWord (t := 0x03#8) (by decide)
  | sampleU8 => exact decode_sampleWord (t := 0x04#8) (by decide)
  | sampleU16 => exact decode_sampleWord (t := 0x05#8) (by decide)
  | sampleU32 => exact decode_sampleWord (t := 0x06#8) (by decide)
  | sampleU64 => exact decode_sampleWord (t := 0x07#8) (by decide)
  | sampleF32 => exact decode_sampleWord (t := 0x08#8) (by decide)
  | sampleF64 => exact decode_sampleWord (t := 0x09#8) (by decide)
  | sampleDec => exact decode_sampleWord (t := 0x0A#8) (by decide)
  | sampleRaw size => exact decode_rawSampleWord (of_decide_eq_true h)
  | fillI8 n => exact decode_fillWord (t := 0x00#8) (by decide) (of_decide_eq_true h)
  | fillI16 n => exact decode_fillWord (t := 0x01#8) (by decide) (of_decide_eq_true h)
  | fillI32 n => exact decode_fillWord (t := 0x02#8) (by decide) (of_decide_eq_true h)
  | fillI64 n => exact decode_fillWord (t := 0x03#8) (by decide) (of_decide_eq_true h)
  | fillU8 n => exact decode_fillWord (t := 0x04#8) (by decide) (of_decide_eq_true h)
  | fillU16 n => exact decode_fillWord (t := 0x05#8) (by decide) (of_decide_eq_true h)
  | fillU32 n => exact decode_fillWord (t := 0x06#8) (by decide) (of_decide_eq_true h)
  | fillU64 n => exact decode_fillWord (t := 0x07#8) (by decide) (of_decide_eq_true h)
  | fillF32 n => exact decode_fillWord (t := 0x08#8) (by decide) (of_decide_eq_true h)
  | fillF64 n => exact decode_fillWord (t := 0x09#8) (by decide) (of_decide_eq_true h)
  | fillDec n => exact decode_fillWord (t := 0x0A#8) (by decide) (of_decide_eq_true h)
  | fillRaw size n =>
    obtain ⟨hs, hn⟩ := (Bool.and_eq_true _ _).mp h
    rw [encode, decode_rawFill, toNat_ofNat_size (of_decide_eq_true hs), toNat_ofNat_count (of_decide_eq_true hn)]

/-- A SAMPLE of the decoder is in range and its word holds the TYPE and SIZE it came from. -/
theorem sampleOf_ok {type size : Nat} {i : Instr} (h : sampleOf type size = .ok i) (hs : SizeOk size)
    (hz : type = 11 ∨ size = 0) :
    i.WellFormed ∧ encode i = mkCommand 0x03#8 (BitVec.ofNat 8 type) (BitVec.ofNat 16 size) 0#32 := by
  obtain rfl | rfl := hz
  · cases h
    exact ⟨decide_eq_true hs, rfl⟩
  · unfold sampleOf at h
    split at h <;> cases h <;> exact ⟨rfl, rfl⟩

/-- A FILL of the decoder is in range and its word holds the TYPE, SIZE and IMM it came from. -/
theorem fillOf_ok {type size n : Nat} {i : Instr} (h : fillOf type size n = .ok i) (hs : SizeOk size)
    (hn : CountOk n) (hz : type = 11 ∨ size = 0) : i.WellFormed ∧
      encode i = mkCommand 0x04#8 (BitVec.ofNat 8 type) (BitVec.ofNat 16 size) (BitVec.ofNat 32 n) := by
  obtain rfl | rfl := hz
  · cases h
    exact ⟨by simp [Instr.WellFormed, Instr.wellFormed, hs, hn], rfl⟩
  · unfold fillOf at h
    split at h <;> cases h <;> exact ⟨by simp [Instr.WellFormed, Instr.wellFormed, hn], rfl⟩

theorem sizeOk_toNat (z : BitVec 16) : SizeOk z.toNat := Nat.le_of_lt_succ z.isLt

theorem countOk_toNat (m : BitVec 32) : CountOk m.toNat := Nat.le_of_lt_succ m.isLt

/-- R46: a word decodes only to a command in range whose own word it is. -/
theorem encode_of_decode {w : Command} {i : Instr} (h : decode w = .ok i) : i.WellFormed ∧ encode i = w := by
  have toNats : typeField w = 0x0B#8 ∨ sizeField w = 0 → (typeField w).toNat = 11 ∨ (sizeField w).toNat = 0 :=
    Or.imp (congrArg BitVec.toNat) (congrArg BitVec.toNat)
  rw [← mkCommand_fields w]
  obtain ⟨ho, ht, hz, rfl⟩ | ⟨ho, ht, hz, hm, rfl⟩ | ⟨ho, hz, hm, hi⟩ | ⟨ho, hz, hi⟩ := decode_ok_cases h
  · exact ⟨decide_eq_true (seedOk_of_decode h), by simp [encode, ho, ht, hz]⟩
  · exact ⟨rfl, by simp [encode, ho, ht, hz, hm]⟩
  · simpa [ho, hm] using sampleOf_ok hi (sizeOk_toNat _) (toNats hz)
  · simpa [ho] using fillOf_ok hi (sizeOk_toNat _) (countOk_toNat _) (toNats hz)

/-- R44, R46, R54: a word decodes to a command exactly when it is the word of that command, operands in range. -/
theorem decode_eq_ok_iff {w : Command} {i : Instr} : decode w = .ok i ↔ i.WellFormed ∧ encode i = w :=
  ⟨encode_of_decode, fun ⟨hi, hw⟩ => hw ▸ decodeOfEncode i hi⟩

theorem sampleOf_ne_notSeeded (type size : Nat) : sampleOf type size ≠ .error .notSeeded := by
  unfold sampleOf; split <;> simp

theorem fillOf_ne_notSeeded (type size n : Nat) : fillOf type size n ≠ .error .notSeeded := by
  unfold fillOf; split <;> simp

/-- The decoder raises the two errors of R48 only. -/
theorem decode_ne_notSeeded (w : Command) : decode w ≠ .error .notSeeded := by
  obtain ho | ho | ho | ho | ho := opc_cases w
  · simp [decode_of_badOpc ho]
  · rw [decode_of_opc_seed ho]; split <;> simp
  · rw [decode_of_opc_draw ho]; split <;> simp
  · rw [decode_of_opc_sample ho]; split_ifs <;> simp [sampleOf_ne_notSeeded]
  · rw [decode_of_opc_fill ho]; split_ifs <;> simp [fillOf_ne_notSeeded]

/-- Settles O3: a word that is the word of a command decodes to it, so a rejected word is the word of none. -/
theorem everyWordIsCommandOrError : Obligations.EveryWordIsCommandOrError := by
  intro w
  cases hd : decode w with
  | ok i =>
    obtain ⟨hi, he⟩ := decode_eq_ok_iff.mp hd
    exact .inl ⟨i, hi, rfl, he⟩
  | error k =>
    refine .inr ⟨?_, fun i hi he => ?_⟩
    · cases k with
      | unsupportedType => exact .inr rfl
      | illegalCommand => exact .inl rfl
      | notSeeded => exact absurd hd (decode_ne_notSeeded w)
    · simp [decode_eq_ok_iff.mpr ⟨hi, he⟩] at hd

/-! ### The rows of the opcode map -/

/-- R42, R43, R45: the fields of every command's word. -/
theorem commandFields (i : Instr) : Statement i := by
  cases i with
  | seed z => exact Laws.CommandFields.seed z
  | draw => exact Laws.CommandFields.draw
  | sampleI8 => exact Laws.CommandFields.sampleI8
  | sampleI16 => exact Laws.CommandFields.sampleI16
  | sampleI32 => exact Laws.CommandFields.sampleI32
  | sampleI64 => exact Laws.CommandFields.sampleI64
  | sampleU8 => exact Laws.CommandFields.sampleU8
  | sampleU16 => exact Laws.CommandFields.sampleU16
  | sampleU32 => exact Laws.CommandFields.sampleU32
  | sampleU64 => exact Laws.CommandFields.sampleU64
  | sampleF32 => exact Laws.CommandFields.sampleF32
  | sampleF64 => exact Laws.CommandFields.sampleF64
  | sampleDec => exact Laws.CommandFields.sampleDec
  | sampleRaw size => exact Laws.CommandFields.sampleRaw size
  | fillI8 n => exact Laws.CommandFields.fillI8 n
  | fillI16 n => exact Laws.CommandFields.fillI16 n
  | fillI32 n => exact Laws.CommandFields.fillI32 n
  | fillI64 n => exact Laws.CommandFields.fillI64 n
  | fillU8 n => exact Laws.CommandFields.fillU8 n
  | fillU16 n => exact Laws.CommandFields.fillU16 n
  | fillU32 n => exact Laws.CommandFields.fillU32 n
  | fillU64 n => exact Laws.CommandFields.fillU64 n
  | fillF32 n => exact Laws.CommandFields.fillF32 n
  | fillF64 n => exact Laws.CommandFields.fillF64 n
  | fillDec n => exact Laws.CommandFields.fillDec n
  | fillRaw size n => exact Laws.CommandFields.fillRaw size n

@[simp] theorem opcField_and (w v : Command) : opcField (w &&& v) = opcField w &&& opcField v :=
  BitVec.extractLsb'_and

@[simp] theorem typeField_and (w v : Command) : typeField (w &&& v) = typeField w &&& typeField v :=
  BitVec.extractLsb'_and

@[simp] theorem sizeField_and (w v : Command) : sizeField (w &&& v) = sizeField w &&& sizeField v :=
  BitVec.extractLsb'_and

@[simp] theorem immField_and (w v : Command) : immField (w &&& v) = immField w &&& immField v :=
  BitVec.extractLsb'_and

/-- Two words are the same when their fields are (R41). -/
theorem word_eq_iff (w v : Command) : w = v ↔
    opcField w = opcField v ∧ typeField w = typeField v ∧ sizeField w = sizeField v ∧ immField w = immField v := by
  refine ⟨by rintro rfl; simp, fun ⟨ho, ht, hz, hm⟩ => ?_⟩
  rw [← mkCommand_fields w, ho, ht, hz, hm, mkCommand_fields]

/-- R50: a row's pattern is its OPC and TYPE; its mask covers these and the fields the command does not use. -/
theorem opcodeRow_eq (i : Instr) : opcodeRow i =
    ⟨mkCommand (opc i) (type i) 0 0,
      mkCommand (BitVec.allOnes 8) (BitVec.allOnes 8) (if usesSize i then 0 else BitVec.allOnes 16)
        (if usesImm i then 0 else BitVec.allOnes 32)⟩ := by
  cases i <;> simp only [opcodeRow, opc, type, usesSize, usesImm, Bool.false_eq_true, if_true, if_false] <;> rfl

/-- A row selects the words of its OPC and TYPE whose fields it does not use are 0. -/
theorem selected_iff (w : Command) (i : Instr) : w &&& (opcodeRow i).mask = (opcodeRow i).pattern ↔
    opcField w = opc i ∧ typeField w = type i ∧
      (usesSize i = false → sizeField w = 0) ∧ (usesImm i = false → immField w = 0) := by
  cases hs : usesSize i <;> cases hm : usesImm i <;> simp [opcodeRow_eq, word_eq_iff, hs, hm, -BitVec.reduceAllOnes]

/-- R45: SIZE is used by the two RAW commands. -/
theorem usesSize_eq (i : Instr) : usesSize i = decide (type i = 0x0B#8) := by
  cases i <;> rfl

/-- R45: IMM is used by SEED and by every FILL. -/
theorem usesImm_eq (i : Instr) : usesImm i = decide (opc i = 0x01#8 ∨ opc i = 0x04#8) := by
  cases i <;> rfl

/-- R50: OPC and TYPE make the row. -/
theorem opcodeRow_eq_iff (i j : Instr) : opcodeRow i = opcodeRow j ↔ opc i = opc j ∧ type i = type j := by
  constructor
  · intro h
    rw [opcodeRow_eq, opcodeRow_eq, OpcodeRow.mk.injEq, word_eq_iff] at h
    simpa using h.1
  · rintro ⟨ho, ht⟩
    rw [opcodeRow_eq, opcodeRow_eq, usesSize_eq, usesSize_eq, usesImm_eq, usesImm_eq, ho, ht]

/-- R42, R43: every command has one of the OPC and TYPE values the decoder accepts. -/
theorem opc_type_cases (i : Instr) : (opc i = 0x01#8 ∧ type i = 0) ∨ (opc i = 0x02#8 ∧ type i = 0) ∨
    (opc i = 0x03#8 ∧ (type i).toNat ≤ 0x0B) ∨ (opc i = 0x04#8 ∧ (type i).toNat ≤ 0x0B) := by
  cases i <;> simp [opc, type]

theorem sampleOf_isOk {type : Nat} (h : type ≤ 11) (size : Nat) : ∃ i, sampleOf type size = .ok i := by
  interval_cases type <;> exact ⟨_, rfl⟩

theorem fillOf_isOk {type : Nat} (h : type ≤ 11) (size n : Nat) : ∃ i, fillOf type size n = .ok i := by
  interval_cases type <;> exact ⟨_, rfl⟩

/-- A word that a row selects decodes. -/
theorem decode_of_selected {w : Command} {i : Instr} (ho : opcField w = opc i) (ht : typeField w = type i)
    (hs : usesSize i = false → sizeField w = 0) (hm : usesImm i = false → immField w = 0) :
    ∃ j, decode w = .ok j := by
  rw [usesSize_eq, ← ht, decide_eq_false_iff_not] at hs
  rw [usesImm_eq, ← ho, decide_eq_false_iff_not] at hm
  have hz : typeField w = 0x0B#8 ∨ sizeField w = 0 := or_iff_not_imp_left.mpr hs
  obtain hc | hc | hc | hc := opc_type_cases i <;> rw [← ho, ← ht] at hc <;> obtain ⟨ho, ht⟩ := hc
  · have hs0 := hs (by simp [ht])
    exact ⟨_, by rw [decode_of_opc_seed ho, if_neg (by simp [ht, hs0])]⟩
  · have hs0 := hs (by simp [ht])
    have hm0 := hm (by simp [ho])
    exact ⟨_, by rw [decode_of_opc_draw ho, if_neg (by simp [ht, hs0, hm0])]⟩
  · rw [decode_sample ho ht hz (hm (by simp [ho]))]
    exact sampleOf_isOk ht _
  · rw [decode_fill ho ht hz]
    exact fillOf_isOk ht _ _

/-- A word that decodes is selected by the row of its command. -/
theorem selected_of_decode {w : Command} {i : Instr} (h : decode w = .ok i) :
    w &&& (opcodeRow i).mask = (opcodeRow i).pattern := by
  rw [selected_iff, ← (encode_of_decode h).2]
  exact commandFields i

/-- Settles O4: a row selects the words that decode and have its OPC and TYPE, and these two make the row. -/
theorem opcodeMapSelects : Obligations.OpcodeMapSelects := by
  refine ⟨fun w i => ⟨fun h => ?_, fun ⟨j, hd, hj⟩ => hj ▸ selected_of_decode hd⟩, fun w i j hi hj => ?_⟩
  · obtain ⟨ho, ht, hs, hm⟩ := (selected_iff w i).mp h
    obtain ⟨j, hd⟩ := decode_of_selected ho ht hs hm
    obtain ⟨ho', ht', -⟩ := (selected_iff w j).mp (selected_of_decode hd)
    exact ⟨j, hd, (opcodeRow_eq_iff j i).mpr ⟨ho'.symm.trans ho, ht'.symm.trans ht⟩⟩
  · obtain ⟨ho, ht, -⟩ := (selected_iff w i).mp hi
    obtain ⟨ho', ht', -⟩ := (selected_iff w j).mp hj
    exact (opcodeRow_eq_iff i j).mpr ⟨ho.symm.trans ho', ht.symm.trans ht'⟩

/-! ### Reserved encodings and must-be-zero fields -/

theorem runCommand_of_error {w : Command} {k : ErrorKind} (h : decode w = .error k) (s : State) :
    runCommand w s = .next (failed s (errorStatus k)) := by
  simp only [runCommand, h]; rfl

/-- R48: a reserved TYPE is rejected whatever the other fields hold. -/
theorem decode_of_reservedType {w : Command} (ho : opcField w = 0x03#8 ∨ opcField w = 0x04#8)
    (ht : 0x0C ≤ (typeField w).toNat) : decode w = .error .unsupportedType := by
  obtain ho | ho := ho
  · rw [decode_of_opc_sample ho, if_pos (by omega)]
  · rw [decode_of_opc_fill ho, if_pos (by omega)]

/-- A word of decimal type is a decimal command or is rejected as one. -/
theorem decode_of_decimalType {w : Command} (ho : opcField w = 0x03#8 ∨ opcField w = 0x04#8)
    (ht : typeField w = 0x0A#8) :
    decode w = .error .unsupportedType ∨ ∃ i, isDecimal i = true ∧ decode w = .ok i := by
  obtain ho | ho := ho
  · by_cases hz : sizeField w ≠ 0 ∨ immField w ≠ 0
    · exact .inl (by rw [decode_of_opc_sample ho, if_neg (by simp [ht]), if_pos ⟨ht, hz⟩])
    · rw [not_or, not_not, not_not] at hz
      exact .inr ⟨.sampleDec, rfl, by simp [decode_of_opc_sample ho, ht, hz, sampleOf]⟩
  · by_cases hz : sizeField w ≠ 0
    · exact .inl (by rw [decode_of_opc_fill ho, if_neg (by simp [ht]), if_pos ⟨ht, hz⟩])
    · rw [not_not] at hz
      exact .inr ⟨.fillDec (immField w).toNat, rfl, by simp [decode_of_opc_fill ho, ht, hz, fillOf]⟩

theorem runCommand_of_decimalType {w : Command} (ho : opcField w = 0x03#8 ∨ opcField w = 0x04#8)
    (ht : typeField w = 0x0A#8) (s : State) : runCommand w s = .next (failed s .unsupportedType) := by
  obtain hd | ⟨i, hi, hd⟩ := decode_of_decimalType ho ht
  · exact runCommand_of_error hd s
  · simp only [runCommand, hd]
    exact (exec_of_isDecimal hi).2 s

/-- R47: the TYPE alone decides, whether the decoder or a decimal command's meaning raises the error. -/
theorem runCommand_of_badType {w : Command} (h : BadType w) (s : State) :
    runCommand w s = .next (failed s .unsupportedType) := by
  obtain ⟨ho, ht | ⟨ht, -⟩⟩ := h
  · exact runCommand_of_error (decode_of_reservedType ho ht) s
  · exact runCommand_of_decimalType ho ht s

/-- Settles O5, by the lines of R48 that reject an OPC and a TYPE; a decimal command is rejected by its meaning. -/
theorem reservedEncodings : Obligations.ReservedEncodings := fun _ s =>
  ⟨fun h => runCommand_of_error (decode_of_badOpc h) s, fun ho ht => runCommand_of_badType ⟨ho, .inl ht⟩ s,
    fun ho ht hd => runCommand_of_badType ⟨ho, .inr ⟨ht, hd⟩⟩ s⟩

/-- R45, R48: a non-zero must-be-zero field is looked at once the TYPE is accepted. -/
theorem decode_of_badFields {w : Command} (h : BadFields w) (ht : ¬ BadType w) :
    decode w = .error .illegalCommand := by
  obtain ⟨ho, h⟩ | ⟨ho, h⟩ | ⟨ho, h⟩ | ⟨ho, h⟩ := h
  · rw [decode_of_opc_seed ho, if_pos h]
  · rw [decode_of_opc_draw ho, if_pos h]
  · have hres : ¬ 0x0B < (typeField w).toNat := fun hr => ht ⟨.inl ho, .inl hr⟩
    have hdec : typeField w ≠ 0x0A#8 := fun hd => ht ⟨.inl ho, .inr ⟨hd, rfl⟩⟩
    rw [decode_of_opc_sample ho, if_neg hres, if_neg fun hd => hdec hd.1, if_pos h]
  · have hres : ¬ 0x0B < (typeField w).toNat := fun hr => ht ⟨.inr ho, .inl hr⟩
    have hdec : typeField w ≠ 0x0A#8 := fun hd => ht ⟨.inr ho, .inr ⟨hd, rfl⟩⟩
    rw [decode_of_opc_fill ho, if_neg hres, if_neg fun hd => hdec hd.1, if_pos h]

/-- Settles O6: R48 looks at the TYPE before the must-be-zero fields. -/
theorem mustBeZeroFields : Obligations.MustBeZeroFields :=
  ⟨fun _ s h ht => runCommand_of_error (decode_of_badFields h ht) s, fun _ s _ ht => runCommand_of_badType ht s,
    decode_rawFill⟩

/-! ### The streams -/

/-- R51: running a word only appends records. -/
theorem runCommand_out {w : Command} {s t : State} (h : runCommand w s = .next t) :
    ∃ records, t.out = s.out ++ records := by
  obtain ⟨z, hw⟩ | ⟨k, hw⟩ | ⟨n, c, -, hw⟩ := runCommand_cases w
  · obtain rfl := next_unique ((hw s).trans (exec_seed z s)) h
    exact ⟨_, rfl⟩
  · obtain rfl := next_unique (hw s) h
    exact ⟨_, rfl⟩
  · obtain rfl := next_unique (hw s) h
    obtain hs | hs := Bool.eq_false_or_eq_true s.seeded
    · exact ⟨_, by rw [ifSeeded_of_seeded hs, done_out, emit_out, List.append_assoc]⟩
    · exact ⟨_, by rw [ifSeeded_of_not_seeded hs, raise_out]⟩

theorem serve_streams {event : HostEvent} {s t : State} (h : serve event s = .next t) :
    t.cmd = s.cmd ∧ ∃ records, t.out = s.out ++ records := by
  cases event with
  | command w => exact ⟨(runCommand_generator h).1, runCommand_out h⟩
  | reset =>
    obtain rfl := Host.Outcome.next.inj h
    exact ⟨rfl, [], (List.append_nil _).symm⟩
  | commandCut w k =>
    obtain ⟨u, -, rfl⟩ := cutCommand_next h
    exact ⟨rfl, _, rfl⟩

/-- Settles O13: the idle step keeps both streams, and what the host did is taken off the queue and served. -/
theorem stepKeepsStreams : Obligations.StepKeepsStreams := by
  intro s t h
  cases hc : s.cmd with
  | nil =>
    simp only [step, hc] at h
    obtain rfl := Host.Outcome.next.inj h
    exact ⟨hc, [], (List.append_nil _).symm⟩
  | cons event rest =>
    simp only [step, hc] at h
    exact serve_streams h

theorem serve_next (event : HostEvent) (s : State) : ∃ t, serve event s = .next t := by
  cases event with
  | command w => exact runCommand_next w s
  | reset => exact ⟨_, rfl⟩
  | commandCut w k =>
    obtain ⟨u, hu⟩ := runCommand_next w s
    exact ⟨resetBlock (emit ((valueBeats s.out u.out).take k) s), by simp only [serve, cutCommand, hu]⟩

/-- Settles O14: everything the host can do is served to a next state. -/
theorem stepNeverStops : Obligations.StepNeverStops := by
  intro s
  cases hc : s.cmd with
  | nil => exact ⟨s, by simp only [step, hc]⟩
  | cons event rest => simpa only [step, hc] using serve_next event _

/-- Settles O9: taking the error appends its completion record (R125). -/
theorem stepReportsDecodeError : Obligations.StepReportsDecodeError :=
  fun _ _ _ hc => ⟨step_of_decode_error hc, step_of_decode_error hc⟩

/-! ### The records of a command -/

/-- Command `i` answers value beats of the given widths and one completion record, or an error's record alone. -/
def AnswersWidths (i : Instr) (widths : List Nat) : Prop :=
  ∀ s : State, ∃ t beats st, exec i s = .next t ∧ t.out = s.out ++ beats ++ [.done st] ∧
    (st = .ok → beats.map beatWidth = widths.map some) ∧ (st ≠ .ok → beats = [])

theorem AnswersWidths.of_error {i : Instr} {widths : List Nat} {k : ErrorKind}
    (hi : ∀ s, exec i s = .next (raise k s)) : AnswersWidths i widths := fun s =>
  ⟨_, [], errorStatus k, hi s, by simp, fun h => absurd h (errorStatus_ne_ok k), fun _ => rfl⟩

theorem AnswersWidths.of_ifSeeded {i : Instr} {widths : List Nat} {e : State → Engine} {beats : State → List Record}
    (hb : ∀ s, (beats s).map beatWidth = widths.map some)
    (hi : ∀ s, exec i s = .next (ifSeeded s (answered s (e s) (beats s)))) : AnswersWidths i widths := by
  intro s
  obtain hs | hs := Bool.eq_false_or_eq_true s.seeded
  · exact ⟨_, beats s, .ok, by rw [hi, ifSeeded_of_seeded hs], rfl, fun _ => hb s, fun h => absurd rfl h⟩
  · exact ⟨_, [], .notSeeded, by rw [hi, ifSeeded_of_not_seeded hs], by simp [errorStatus], nofun, fun _ => rfl⟩

theorem AnswersWidths.of_sample {i : Instr} {value : ValueFn} {w : Nat}
    (hw : ∀ e, beatWidth (value e).1 = some w) (hi : ∀ s, exec i s = .next (sampleWith value s)) :
    AnswersWidths i [w] :=
  .of_ifSeeded (beats := fun s => [(value s.engine).1]) (fun s => by simp [hw]) hi

theorem fillValues_beatWidths {value : ValueFn} {w : Nat} (hw : ∀ e, beatWidth (value e).1 = some w) (n : Nat)
    (e : Engine) : (fillValues value n e).1.map beatWidth = (List.replicate n w).map some := by
  induction n generalizing e with
  | zero => rfl
  | succ n ih => simp only [fillValues, List.map_cons, List.replicate_succ, hw, ih]

theorem AnswersWidths.of_fill {i : Instr} {value : ValueFn} {w n : Nat}
    (hw : ∀ e, beatWidth (value e).1 = some w) (hi : ∀ s, exec i s = .next (fillWith value n s)) :
    AnswersWidths i (List.replicate n w) :=
  .of_ifSeeded (beats := fun s => (fillValues value n s.engine).1) (fun s => fillValues_beatWidths hw n s.engine) hi

/-- Settles O46, by the width of the beat of each value function (R43). -/
theorem oneCompletionRecord : Obligations.OneCompletionRecord := by
  intro i
  change AnswersWidths i (beatWidths i)
  cases i with
  | seed z => exact fun s => ⟨_, [], .ok, exec_seed z s, by simp, fun _ => rfl, fun _ => rfl⟩
  | draw => exact .of_ifSeeded (beats := fun s => [.val 32 (draw s.engine).1]) (fun _ => rfl) fun _ => rfl
  | sampleDec => exact .of_error fun _ => rfl
  | fillDec n => exact .of_error fun _ => rfl
  | sampleI8 => exact .of_sample (fun _ => rfl) fun _ => rfl
  | sampleI16 => exact .of_sample (fun _ => rfl) fun _ => rfl
  | sampleI32 => exact .of_sample (fun _ => rfl) fun _ => rfl
  | sampleI64 => exact .of_sample (fun _ => rfl) fun _ => rfl
  | sampleU8 => exact .of_sample (fun _ => rfl) fun _ => rfl
  | sampleU16 => exact .of_sample (fun _ => rfl) fun _ => rfl
  | sampleU32 => exact .of_sample (fun _ => rfl) fun _ => rfl
  | sampleU64 => exact .of_sample (fun _ => rfl) fun _ => rfl
  | sampleF32 => exact .of_sample (fun _ => rfl) fun _ => rfl
  | sampleF64 => exact .of_sample (fun _ => rfl) fun _ => rfl
  | sampleRaw size => exact .of_sample (fun _ => rfl) fun _ => rfl
  | fillI8 n => exact .of_fill (fun _ => rfl) fun _ => rfl
  | fillI16 n => exact .of_fill (fun _ => rfl) fun _ => rfl
  | fillI32 n => exact .of_fill (fun _ => rfl) fun _ => rfl
  | fillI64 n => exact .of_fill (fun _ => rfl) fun _ => rfl
  | fillU8 n => exact .of_fill (fun _ => rfl) fun _ => rfl
  | fillU16 n => exact .of_fill (fun _ => rfl) fun _ => rfl
  | fillU32 n => exact .of_fill (fun _ => rfl) fun _ => rfl
  | fillU64 n => exact .of_fill (fun _ => rfl) fun _ => rfl
  | fillF32 n => exact .of_fill (fun _ => rfl) fun _ => rfl
  | fillF64 n => exact .of_fill (fun _ => rfl) fun _ => rfl
  | fillRaw size n => exact .of_fill (fun _ => rfl) fun _ => rfl

/-! ### Words and codes -/

/-- Settles O1: each word is the word of its command. -/
theorem decodeWordsFromTheMap : Obligations.DecodeWordsFromTheMap :=
  ⟨decode_eq_ok_iff.mpr ⟨rfl, rfl⟩, decode_eq_ok_iff.mpr ⟨rfl, rfl⟩, decode_eq_ok_iff.mpr ⟨rfl, rfl⟩,
    decode_eq_ok_iff.mpr ⟨rfl, rfl⟩, decode_eq_ok_iff.mpr ⟨rfl, rfl⟩, decode_eq_ok_iff.mpr ⟨rfl, rfl⟩⟩

/-- Settles O47, status by status. -/
theorem statusCodes : Obligations.StatusCodes :=
  ⟨rfl, rfl, rfl, rfl, fun st => by cases st <;> decide⟩

end Sys2Proof.Machine

/-! ## 40_state_engine.md: what SEED constructs and what a draw does -/

namespace Sys2Proof.Machine

open Sys2Proof.Claim

/-! ### SEED -/

/-- R63, R64: the adjusted difference of the rule is what the walk and a mixing step store. -/
theorem addMaxIfNeg_sub32_adjust (a b : Word) :
    (addMaxIfNeg (sub32 a b)).toInt = adjust (a.toInt - b.toInt) := by
  rw [addMaxIfNeg_toInt, sub32_toInt]; rfl

/-- R63: the walk's values are those of the rule, for every start value. -/
theorem walkSeq_adjust (v : Word) (n : Nat) : (walkSeq v (wrap32 1) n).toInt = walkValue adjust v.toInt n := by
  induction n using Nat.twoStepInduction with
  | zero => rfl
  | one => exact wrap32_toInt_of_fits (by decide)
  | more n ih0 ih1 => rw [walkSeq, addMaxIfNeg_sub32_adjust, ih0, ih1, walkValue]

/-- R62, R63: the array after steps 2 and 3. -/
theorem seedFill_walked {z : Int} (h : SeedOk z) (x : Vector Word 56) : Walked adjust (startInt z) (seedFill z x) := by
  rw [← seedStart_exact h]
  refine ⟨?_, fun k h1 h2 => ?_⟩
  · rw [slotInt_of_lt (by omega)]; exact congrArg _ (readSlot_seedFill_55 z x)
  · rw [slotInt_of_lt (by omega), readSlot_seedFill z x k h1 h2, walkSeq_adjust]

/-- R64: a pass is the in-place ascending update of the rule, whatever the slots hold. -/
theorem mixPass_mixed (x : Vector Word 56) : Mixed adjust x (mixPass x) := by
  intro i h1 h2
  have hi : i < 56 := by omega
  rw [slotInt_of_lt hi, slotInt_of_lt hi]
  split
  case isTrue h24 =>
    rw [slotInt_of_lt (by omega), readSlot_mixPass_low x ⟨i, hi⟩ h1 h24, addMaxIfNeg_sub32_adjust]
  case isFalse h24 =>
    rw [slotInt_of_lt (by omega), readSlot_mixPass_high x ⟨i, hi⟩ (by simp only; omega), addMaxIfNeg_sub32_adjust]

/-- R64, overflow: the two differences that wrap, of MAX_INT and -1, both end at -1. -/
theorem addMaxIfNeg_sub32_nearRange {a b : Word} (ha : NearRange a) (hb : NearRange b) :
    NearRange (addMaxIfNeg (sub32 a b)) := by
  obtain ⟨ha1, ha2⟩ := ha
  obtain ⟨hb1, hb2⟩ := hb
  rw [NearRange, addMaxIfNeg_toInt, sub32_toInt, Int.bmod_def]
  simp only [maxInt] at *
  split_ifs <;> omega

/-- A mixing step keeps the used slots in `[-1, MAX_INT]`: its partner is a used slot (R64). -/
theorem mixStep_slotsNearRange {x : Vector Word 56} (h : SlotsNearRange x) (i : Fin 56) :
    SlotsNearRange (mixStep x i) := by
  intro j hj
  rw [readSlot_mixStep]
  split
  case isTrue hji => exact addMaxIfNeg_sub32_nearRange (h i (hji ▸ hj)) (h _ (fin_ne_zero (Nat.le_add_right 1 _)))
  case isFalse => exact h j hj

theorem mixPass_slotsNearRange {x : Vector Word 56} (h : SlotsNearRange x) : SlotsNearRange (mixPass x) := by
  have steps : ∀ m, SlotsNearRange (mixSteps m x) := by
    intro m
    induction m with
    | zero => exact h
    | succ m ih => exact mixStep_slotsNearRange ih _
  exact steps 55

theorem seedEngine_x_passes (z : Int) (e : Engine) :
    (seedEngine z e).x = mixPass (mixPass (mixPass (mixPass (seedFill z e.x)))) := by
  rw [seedEngine_x, mixPasses_four, mixPasses_two, mixPasses_two]

/-- R45: the word of a SEED has no TYPE and no SIZE. -/
theorem decode_seed_badFields {type : BitVec 8} {size : BitVec 16} (imm : BitVec 32) (h : type ≠ 0#8 ∨ size ≠ 0#16) :
    decode (mkCommand 0x01#8 type size imm) = .error .illegalCommand := by
  rw [decode_of_opc_seed (opcField_mkCommand ..), typeField_mkCommand, sizeField_mkCommand]
  exact if_pos h

/-- Settles O17, step by step of R61 to R65. -/
theorem seedConstructs : Obligations.SeedConstructs := by
  intro z s hz
  refine ⟨⟨_, _, _, _, _, exec_seed z s, seedFill_walked hz s.engine.x, mixPass_mixed _, mixPass_mixed _,
    mixPass_mixed _, ?_, seedEngine_cursorA z _, seedEngine_cursorB z _, rfl⟩, decode_seedWord hz,
    fun _ _ imm h => decode_seed_badFields imm h⟩
  rw [done_engine, setSeeded_engine, seedEngine_x_passes]
  exact mixPass_mixed _

/-- Settles O18: the walk is exact and stores values in range only. -/
theorem seedWalkNeverWraps : Obligations.SeedWalkNeverWraps := by
  refine fun z x hz => ⟨seedFill_walkedExact hz x, fun i h1 h2 => ?_⟩
  rw [slotInt_of_lt (by omega)]
  exact seedFill_inRange hz x ⟨i, by omega⟩ h1 h2

/-- Settles O19. -/
theorem mixingPass : Obligations.MixingPass := fun x =>
  ⟨mixPass_mixed x, readSlot_mixPass_zero x, mixPass_slotsNearRange⟩

/-- Settles O20: the flag is set, and the generator constructed does not depend on what the engine held. -/
theorem seedDiscardsOldGenerator : Obligations.SeedDiscardsOldGenerator := fun z s t =>
  ⟨_, _, exec_seed z s, exec_seed z t, rfl, rfl, seedEngine_sameGenerator z s.engine t.engine⟩

/-- Settles O23: the second pass at the latest leaves every slot in range, and the later ones keep that. -/
theorem seedEndsInRange : Obligations.SeedEndsInRange := fun z s hz =>
  ⟨_, exec_seed z s, seedEngine_slotsInRange hz s.engine⟩

/-! ### A draw, in integers -/

/-- R68, steps 3 to 5. -/
theorem drawResult_adjustDraw (a b : Word) : (drawResult a b).toInt = adjustDraw (a.toInt - b.toInt) := by
  rw [drawResult_toInt, sub32_toInt]; rfl

/-- R19, R68: the slot that a stepped cursor indexes. -/
theorem readSlot_stepCursor (x : Vector Word 56) (c : Fin 56) :
    (readSlot x (stepCursor c)).toInt = slotInt x (c.val % 55 + 1) := by
  rw [← stepCursor_val, slotInt_of_lt (stepCursor c).isLt]

/-- R68: the value of a draw. -/
theorem draw_toInt (e : Engine) : (draw e).1.toInt =
    adjustDraw (slotInt e.x (e.cursorA.val % 55 + 1) - slotInt e.x (e.cursorB.val % 55 + 1)) := by
  rw [draw_value, drawResult_adjustDraw, readSlot_stepCursor, readSlot_stepCursor]

/-- R68: what a draw leaves in each slot. -/
theorem slotInt_draw (e : Engine) (j : Nat) : slotInt (draw e).2.x j =
    if j = e.cursorA.val % 55 + 1 then (draw e).1.toInt else slotInt e.x j := by
  rw [← stepCursor_val]
  by_cases hj : j < 56
  · rw [slotInt_of_lt hj, slotInt_of_lt hj, readSlot_draw, apply_ite BitVec.toInt]
    simp only [Fin.ext_iff]
  · have hne : j ≠ (stepCursor e.cursorA).val := by have := (stepCursor e.cursorA).isLt; omega
    rw [if_neg hne, slotInt, slotInt, dif_neg hj, dif_neg hj]

/-- DRAW where there is a generator (R69). -/
theorem exec_draw {s : State} (hs : s.seeded = true) :
    exec .draw s = .next (answered s (draw s.engine).2 [.val 32 (draw s.engine).1]) :=
  congrArg _ (ifSeeded_of_seeded hs _)

/-- R45: the word of a DRAW has no other field than OPC. -/
theorem decode_draw_badFields {type : BitVec 8} {size : BitVec 16} {imm : BitVec 32}
    (h : type ≠ 0#8 ∨ size ≠ 0#16 ∨ imm ≠ 0#32) :
    decode (mkCommand 0x02#8 type size imm) = .error .illegalCommand := by
  rw [decode_of_opc_draw (opcField_mkCommand ..), typeField_mkCommand, sizeField_mkCommand, immField_mkCommand]
  exact if_pos h

/-- R19: under the lag invariant the two slots a draw reads are not the same. -/
theorem CursorLag.slots_ne {e : Engine} (h : CursorLag e) : e.cursorA.val % 55 + 1 ≠ e.cursorB.val % 55 + 1 := by
  simp only [CursorLag] at h; omega

/-- Settles O24, by the value of a draw and the one slot it writes. -/
theorem drawStoresAndEmits : Obligations.DrawStoresAndEmits := by
  refine ⟨fun s hs => ?_, needsSeed_of_not_seed_not_decimal rfl rfl, decodeOfEncode .draw rfl,
    fun _ _ _ => decode_draw_badFields⟩
  refine ⟨_, _, _, _, exec_draw hs, rfl, rfl, rfl, CursorLag.slots_ne, ?_, fun j hj => ?_, stepCursor_val _,
    stepCursor_val _, ?_⟩
  · exact (slotInt_draw s.engine _).trans ((if_pos rfl).trans (draw_toInt s.engine))
  · refine (readSlot_draw s.engine j).trans (if_neg fun h => hj ?_)
    rw [h, stepCursor_val]
  · rw [← draw_toInt, BitVec.ofInt_toInt]
    simp [answered]

/-- Settles O25. -/
theorem drawKeepsRange : Obligations.DrawKeepsRange := fun _ => draw_slotsInRange

/-! ### The draws after a SEED -/

section LaggedFibonacci

variable (z : Int) (e0 : Engine)

/-- R19: where the cursors stand after `n` draws, modulo 55. -/
theorem after_seedEngine_cursors_mod (n : Nat) :
    (after n (seedEngine z e0)).cursorA.val % 55 = n % 55 ∧
      (after n (seedEngine z e0)).cursorB.val % 55 = (n + 21) % 55 := by
  cases n with
  | zero => simp [after]
  | succ n =>
    obtain ⟨ha, hb⟩ := after_seedEngine_cursors z e0 (Nat.le_add_left 1 n)
    rw [ha, hb]; omega

/-- R71: draw `n + 1` from the slots that hold its operands. -/
theorem drawn_seedEngine (n : Nat) : (drawn n (seedEngine z e0)).toInt =
    adjustDraw (slotInt (after n (seedEngine z e0)).x (n % 55 + 1) -
      slotInt (after n (seedEngine z e0)).x ((n + 21) % 55 + 1)) := by
  obtain ⟨ha, hb⟩ := after_seedEngine_cursors_mod z e0 n
  rw [drawn, draw_toInt, ha, hb]

/-- R71: draw `n + 1` writes its value to slot `(n mod 55) + 1` and no other slot. -/
theorem slotInt_after_succ (n j : Nat) : slotInt (after (n + 1) (seedEngine z e0)).x j =
    if j = n % 55 + 1 then (drawn n (seedEngine z e0)).toInt else slotInt (after n (seedEngine z e0)).x j := by
  rw [after_succ, slotInt_draw, (after_seedEngine_cursors_mod z e0 n).1]; rfl

/-- R71: the first `n` draws write no slot above `n`. -/
theorem slotInt_after_of_lt {n j : Nat} (h : n < j) :
    slotInt (after n (seedEngine z e0)).x j = slotInt (seedEngine z e0).x j := by
  induction n with
  | zero => rfl
  | succ n ih => rw [slotInt_after_succ, if_neg (by omega), ih (by omega)]

/-- R71: draw `m + 1` stays in its slot until 55 more are made. -/
theorem slotInt_after_of_drawn {m n : Nat} (h : m < n) (h55 : n ≤ m + 55) :
    slotInt (after n (seedEngine z e0)).x (m % 55 + 1) = (drawn m (seedEngine z e0)).toInt := by
  induction n, h using Nat.le_induction with
  | base => rw [slotInt_after_succ, if_pos rfl]
  | succ n hmn ih => rw [slotInt_after_succ, if_neg (by omega), ih (by omega)]

end LaggedFibonacci

/-- Settles O27: which of the two operands of a draw an earlier draw has written. -/
theorem laggedFibonacci : Obligations.LaggedFibonacci := by
  intro z e0 k hk
  obtain ⟨n, rfl⟩ : ∃ n, k = n + 1 := ⟨k - 1, by omega⟩
  dsimp only
  rw [Nat.add_sub_cancel]
  refine ⟨fun h34 => ?_, fun h35 h55 => ?_, fun h56 => ?_, ?_, fun j hj => ?_⟩
  · rw [drawn_seedEngine, show n % 55 + 1 = n + 1 by omega, show (n + 21) % 55 + 1 = n + 1 + 21 by omega,
      slotInt_after_of_lt z e0 (by omega), slotInt_after_of_lt z e0 (by omega)]
  · rw [drawn_seedEngine, show n % 55 + 1 = n + 1 by omega, show (n + 21) % 55 = (n + 1 - 34 - 1) % 55 by omega,
      slotInt_after_of_lt z e0 (by omega), slotInt_after_of_drawn z e0 (by omega) (by omega)]
  · rw [drawn_seedEngine, show n % 55 = (n + 1 - 55 - 1) % 55 by omega,
      show (n + 21) % 55 = (n + 1 - 34 - 1) % 55 by omega,
      slotInt_after_of_drawn z e0 (by omega) (by omega), slotInt_after_of_drawn z e0 (by omega) (by omega)]
  · rw [slotInt_after_succ, if_pos rfl]
  · rw [slotInt_after_succ, if_neg hj]

/-! ### Runs of the same sequence -/

theorem run_succ_of_step {s t : State} (h : step s = .next t) (k : Nat) :
    Host.Core.run core (k + 1) s = Host.Core.run core k t := by
  have hc : core.step s = .next t := h
  simp only [Host.Core.run, hc]

/-- Two states that cannot be told apart run to two such states, for any number of steps (R21, R76). -/
theorem run_indistinguishable (k : Nat) {s s' : State} (hi : Indistinguishable s s') :
    ∃ t t', Host.Core.run core k s = .next t ∧ Host.Core.run core k s' = .next t' ∧ Indistinguishable t t' := by
  induction k generalizing s s' with
  | zero => exact ⟨s, s', rfl, rfl, hi⟩
  | succ k ih =>
    obtain ⟨u, hu⟩ := stepNeverStops s
    obtain ⟨u', hu', hi'⟩ := stepKeepsIndistinguishable s s' u hi hu
    rw [run_succ_of_step hu, run_succ_of_step hu']
    exact ih hi'

/-- A step on a presented `SEED z` (R53, R60). -/
theorem step_seed {z : Int} (hz : SeedOk z) {s : State} {events : List HostEvent}
    (hc : s.cmd = .command (encode (.seed z)) :: events) :
    step s = .next (done .ok (setSeeded { s with engine := seedEngine z s.engine, cmd := events })) :=
  step_of_decode_ok hc (decode_seedWord hz)

/-- Settles O55: after the SEED the two copies cannot be told apart, and every step keeps that. -/
theorem sameSeedSameRecords : Obligations.SameSeedSameRecords := by
  intro z events s s' k hz hc hc' ho hk
  obtain ⟨k, rfl⟩ : ∃ n, k = n + 1 := ⟨k - 1, by omega⟩
  rw [run_succ_of_step (step_seed hz hc), run_succ_of_step (step_seed hz hc')]
  exact run_indistinguishable k
    (constructed_indistinguishable (s := { s with cmd := events }) (s' := { s' with cmd := events }) rfl ho
      (seedEngine_sameGenerator z s.engine s'.engine))

end Sys2Proof.Machine

/-! ## 41_type_adapter_sample.md: the value each SAMPLE emits -/

namespace Sys2Proof.Machine

open Sys2Proof.Claim

/-! ### A SAMPLE and its word -/

/-- R80: a SAMPLE where there is a generator. -/
theorem sampleWith_of_seeded (value : ValueFn) {s : State} (hs : s.seeded = true) :
    sampleWith value s = answered s (value s.engine).2 [(value s.engine).1] :=
  ifSeeded_of_seeded hs _

theorem oneDraw_of_sample {i : Instr} {value : ValueFn} {w : Nat} {f : Word → BitVec w}
    (hi : ∀ s, exec i s = .next (sampleWith value s)) (hv : ∀ e, value e = (.val w (f (draw e).1), (draw e).2)) :
    OneDraw i w f := by
  intro s hs
  rw [hi, sampleWith_of_seeded value hs, hv]

/-- R45, R48: a SAMPLE word of a type that is neither decimal nor RAW. -/
theorem sampleWord_of_sampleOf {t : BitVec 8} {i : Instr} (ht : t.toNat < 0x0A) (hi : sampleOf t.toNat 0 = .ok i) :
    SampleWord t i := by
  have hd : t ≠ 0x0A#8 := fun h => by simp [h] at ht
  have hr : t ≠ 0x0B#8 := fun h => by simp [h] at ht
  refine ⟨(decode_sampleWord (by omega)).trans hi, fun size imm h => decode_of_badFields ?_ ?_⟩
  · exact .inr (.inr (.inl ⟨opcField_mkCommand .., by simpa [hr] using h⟩))
  · simp only [BadType, typeField_mkCommand, hd, false_and, or_false]
    omega

/-! ### Integers -/

/-- R81 to R83: the low bits of a draw are its unsigned value modulo a power of two. -/
theorem lowBits_eq (w : Nat) (e : Engine) :
    lowBits w e = (.val w (BitVec.ofNat w ((draw e).1.toNat % 2 ^ w)), (draw e).2) := by
  have h : (draw e).1.setWidth w = BitVec.ofNat w ((draw e).1.toNat % 2 ^ w) := BitVec.eq_of_toNat_eq (by simp)
  rw [← h]; rfl

/-- A draw is its own low 32 bits (R83, R87). -/
theorem lowBits_32_eq (e : Engine) : lowBits 32 e = (.val 32 (draw e).1, (draw e).2) := by
  simp only [lowBits, BitVec.setWidth_eq]

/-- Settles O31, by the low bits of a draw and the word of each type. -/
theorem sampleNarrowIntegers : Obligations.SampleNarrowIntegers :=
  ⟨⟨oneDraw_of_sample (fun _ => rfl) (lowBits_eq 8), oneDraw_of_sample (fun _ => rfl) (lowBits_eq 8),
      oneDraw_of_sample (fun _ => rfl) (lowBits_eq 16), oneDraw_of_sample (fun _ => rfl) (lowBits_eq 16),
      oneDraw_of_sample (fun _ => rfl) lowBits_32_eq, oneDraw_of_sample (fun _ => rfl) lowBits_32_eq⟩,
    ⟨needsSeed_of_not_seed_not_decimal rfl rfl, needsSeed_of_not_seed_not_decimal rfl rfl,
      needsSeed_of_not_seed_not_decimal rfl rfl, needsSeed_of_not_seed_not_decimal rfl rfl,
      needsSeed_of_not_seed_not_decimal rfl rfl, needsSeed_of_not_seed_not_decimal rfl rfl⟩,
    sampleWord_of_sampleOf (by decide) rfl, sampleWord_of_sampleOf (by decide) rfl,
    sampleWord_of_sampleOf (by decide) rfl, sampleWord_of_sampleOf (by decide) rfl,
    sampleWord_of_sampleOf (by decide) rfl, sampleWord_of_sampleOf (by decide) rfl⟩

/-- R84: `{high, low}` as an unsigned number. -/
theorem append_toNat (high low : Word) : (high ++ low).toNat = low.toNat + 2 ^ 32 * high.toNat := by
  rw [BitVec.toNat_append, ← Nat.shiftLeft_add_eq_or_of_lt low.isLt, Nat.shiftLeft_eq]
  omega

theorem twoDraws_of_sample {i : Instr} (hi : ∀ s, exec i s = .next (sampleWith twoDraws s)) : TwoDraws i := by
  intro s hs
  refine ⟨drawn 1 s.engine ++ drawn 0 s.engine, ?_, append_toNat _ _⟩
  rw [hi, sampleWith_of_seeded twoDraws hs]; rfl

/-- Settles O32, by the two halves of a 64-bit value. -/
theorem sampleWideIntegers : Obligations.SampleWideIntegers :=
  ⟨twoDraws_of_sample fun _ => rfl, twoDraws_of_sample fun _ => rfl, needsSeed_of_not_seed_not_decimal rfl rfl,
    needsSeed_of_not_seed_not_decimal rfl rfl, sampleWord_of_sampleOf (by decide) rfl,
    sampleWord_of_sampleOf (by decide) rfl⟩

/-! ### Raw bytes -/

/-- R33 (a): byte `k` of a value as a number. -/
theorem byteOf_toNat {width : Nat} (v : BitVec width) (k : Nat) : (byteOf v k).toNat = v.toNat / 256 ^ k % 256 := by
  rw [byteOf, BitVec.extractLsb'_toNat, Nat.shiftRight_eq_div_pow, pow_mul]
  norm_num

/-- A value whose bytes are a list's has the list's entries as its bytes; past the end they are 0. -/
theorem littleEndian_byte (bytes : List Byte) (k : Nat) :
    littleEndian bytes / 256 ^ k % 256 = (bytes.getD k 0).toNat := by
  induction bytes generalizing k with
  | nil => simp [littleEndian]
  | cons b bs ih =>
    have hb := b.isLt
    cases k with
    | zero => simp [littleEndian]; omega
    | succ k =>
      have hdiv : littleEndian (b :: bs) / 256 = littleEndian bs := by simp only [littleEndian]; omega
      rw [pow_succ', ← Nat.div_div_eq_div_mul, hdiv, ih]; rfl

theorem littleEndian_append (bytes rest : List Byte) :
    littleEndian (bytes ++ rest) = littleEndian bytes + 256 ^ bytes.length * littleEndian rest := by
  induction bytes with
  | nil => simp [littleEndian]
  | cons b bs ih => simp only [List.cons_append, littleEndian, ih, List.length_cons]; ring

theorem littleEndian_lt (bytes : List Byte) : littleEndian bytes < 256 ^ bytes.length := by
  induction bytes with
  | nil => simp [littleEndian]
  | cons b bs ih =>
    have hb := b.isLt
    simp only [littleEndian, List.length_cons, pow_succ']
    omega

/-- R92: the four bytes of a draw are the draw. -/
theorem littleEndian_drawBytes (d : Word) : littleEndian (drawBytes d) = d.toNat := by
  have hd := d.isLt
  simp only [drawBytes, littleEndian, byteOf_toNat]
  omega

theorem drawBytes_length (d : Word) : (drawBytes d).length = 4 := rfl

theorem drawBytes_getD (d : Word) {j : Nat} (hj : j < 4) : (drawBytes d).getD j 0 = byteOf d j := by
  interval_cases j <;> rfl

/-- R92: byte `k` of the draws laid end to end is byte `k mod 4` of draw `k div 4`. -/
theorem flatMap_drawBytes_getD (draws : List Word) (k : Nat) :
    (draws.flatMap drawBytes).getD k 0 = byteOf (draws.getD (k / 4) 0) (k % 4) := by
  induction draws generalizing k with
  | nil => simp [byteOf]
  | cons d ds ih =>
    rw [List.flatMap_cons]
    obtain hk | hk := Nat.lt_or_ge k 4
    · rw [List.getD_append _ _ _ _ hk, drawBytes_getD d hk, Nat.div_eq_of_lt hk, Nat.mod_eq_of_lt hk]; rfl
    · obtain ⟨j, rfl⟩ := Nat.exists_eq_add_of_le' hk
      rw [List.getD_append_right _ _ _ _ hk, drawBytes_length, Nat.add_sub_cancel, ih,
        show (j + 4) / 4 = j / 4 + 1 by omega, Nat.add_mod_right]; rfl

/-- R92: byte `k` of a raw value. -/
theorem packBytes_getD {size k : Nat} (draws : List Word) (hk : k < size) :
    (packBytes size draws).getD k 0 = byteOf (draws.getD (k / 4) 0) (k % 4) := by
  rw [← flatMap_drawBytes_getD, packBytes, List.getD_eq_getElem?_getD, List.getD_eq_getElem?_getD,
    List.getElem?_take_of_lt hk]

/-- The value of a raw beat fits its width (R51). -/
theorem littleEndian_packBytes_lt (size : Nat) (draws : List Word) :
    littleEndian (packBytes size draws) < 2 ^ (8 * size) := by
  calc littleEndian (packBytes size draws) < 256 ^ (packBytes size draws).length := littleEndian_lt _
    _ ≤ 256 ^ size := Nat.pow_le_pow_right (by norm_num) (List.length_take_le ..)
    _ = 2 ^ (8 * size) := by rw [pow_mul]; norm_num

/-- Draw number `k` of a row is the draw made after `k` draws. -/
theorem drawMany_getD {n k : Nat} (e : Engine) (hk : k < n) : (drawMany n e).1.getD k 0 = drawn k e := by
  have hl : k < (drawMany n e).1.length := by rwa [drawMany_length]
  rw [List.getD_eq_getElem _ _ hl, drawMany_getElem]; rfl

/-- R45: the IMM of a SAMPLE.RAW must be zero. -/
theorem decode_rawSample_badImm (size : BitVec 16) {imm : BitVec 32} (h : imm ≠ 0#32) :
    decode (mkCommand 0x03#8 0x0B#8 size imm) = .error .illegalCommand :=
  decode_of_badFields (.inr (.inr (.inl ⟨opcField_mkCommand .., .inr (by simpa using h)⟩))) (by simp)

/-- Settles O38, byte by byte of the value. -/
theorem sampleRawBytes : Obligations.SampleRawBytes := by
  refine ⟨fun size s hs => ?_, fun size => ⟨needsSeed_of_not_seed_not_decimal rfl rfl, decode_rawSampleWord,
    fun z _ => decode_rawSample_badImm z⟩⟩
  refine ⟨_, congrArg _ (sampleWith_of_seeded (valueRaw size) hs), fun k hk => ?_⟩
  rw [BitVec.toNat_ofNat, Nat.mod_eq_of_lt (littleEndian_packBytes_lt size _), littleEndian_byte,
    packBytes_getD _ hk, byteOf_toNat, drawMany_getD _ (by unfold rawDraws; omega)]

/-- R92, R115: the beat of eight raw bytes is the two draws of a 64-bit integer. -/
theorem valueRaw_8 (e : Engine) : valueRaw 8 e = twoDraws e := by
  have h (low high : Word) : BitVec.ofNat 64 (littleEndian (drawBytes low ++ drawBytes high)) = high ++ low := by
    rw [littleEndian_append, littleEndian_drawBytes, littleEndian_drawBytes, drawBytes_length,
      show 256 ^ 4 = 2 ^ 32 by norm_num, ← append_toNat, BitVec.ofNat_toNat, BitVec.setWidth_eq]
  exact congrArg (fun v => (Record.val 64 v, after 2 e)) (h (drawn 0 e) (drawn 1 e))

/-- R92, R115: the beat of four raw bytes is one draw. -/
theorem valueRaw_4 (e : Engine) : valueRaw 4 e = lowBits 32 e := by
  have h : BitVec.ofNat 32 (littleEndian (drawBytes (draw e).1)) = (draw e).1 := by
    rw [littleEndian_drawBytes, BitVec.ofNat_toNat, BitVec.setWidth_eq]
  rw [lowBits_32_eq]
  exact congrArg (fun v => (Record.val 32 v, (draw e).2)) h

/-- Settles O39, by the value functions of the two types. -/
theorem rawAgreesWithIntegers : Obligations.RawAgreesWithIntegers := fun s =>
  ⟨congrArg (fun value => Host.Outcome.next (sampleWith value s)) (funext valueRaw_8),
    congrArg (fun value => Host.Outcome.next (sampleWith value s)) (funext valueRaw_4),
    fun hs => congrArg _ (sampleWith_of_seeded (valueRaw 0) hs)⟩

/-! ### Decimal -/

/-- Settles O40: the TYPE alone decides, in the decoder or in the command's meaning. -/
theorem decimalUnsupported : Obligations.DecimalUnsupported := fun s =>
  ⟨(exec_of_isDecimal (i := .sampleDec) rfl).2 s, fun n => (exec_of_isDecimal (i := .fillDec n) rfl).2 s,
    fun _ _ => ⟨runCommand_of_decimalType (.inl (opcField_mkCommand ..)) (typeField_mkCommand ..) s,
      runCommand_of_decimalType (.inr (opcField_mkCommand ..)) (typeField_mkCommand ..) s⟩⟩

/-- R100: a fill of values of one draw each maps the value over the draws, in order. -/
theorem fillValues_of_oneDraw {value : ValueFn} {beat : Word → Record}
    (hv : ∀ e, value e = (beat (draw e).1, (draw e).2)) (n : Nat) (e : Engine) :
    fillValues value n e = ((drawMany n e).1.map beat, after n e) := by
  induction n generalizing e with
  | zero => rfl
  | succ n ih => simp only [fillValues, hv, ih]; rfl

/-- Settles O41: with `DEC_SUPPORTED = 1` the two meanings are a SAMPLE and a FILL like the others. -/
theorem decimalSupported : Obligations.DecimalSupported := by
  intro s n
  refine ⟨fun h0 => ⟨ifSeeded_of_not_seeded h0 _, ifSeeded_of_not_seeded h0 _⟩, fun hs => ?_⟩
  have hfill := fillValues_of_oneDraw (value := valueDec) (beat := fun d => .val _ (Config.decScale d)) (fun _ => rfl)
    n s.engine
  refine ⟨(fillValues valueDec n s.engine).1, sampleWith_of_seeded valueDec hs, ?_, ?_, fun k hk => ?_⟩
  · rw [show after n s.engine = (fillValues valueDec n s.engine).2 by rw [hfill]]
    exact ifSeeded_of_seeded hs _
  · simp [hfill]
  · have hl : k < (drawMany n s.engine).1.length := by rwa [drawMany_length]
    rw [hfill, List.getElem?_map, List.getElem?_eq_getElem hl, drawMany_getElem]; rfl

/-! ### Rounding to nearest -/

/-- Where a multiple of `u` lies within half a unit of `P`, no multiple of `u` is nearer, and another one is as near at
exactly half a unit only. -/
theorem multiple_within_half_nearest {P u a : Int} (h : 2 * |P - a * u| ≤ u) (b : Int) :
    |P - a * u| ≤ |P - b * u| ∧ (b ≠ a → |P - b * u| = |P - a * u| → 2 * |P - a * u| = u) := by
  obtain rfl | hne := eq_or_ne b a
  · exact ⟨le_rfl, fun h => absurd rfl h⟩
  have hu : 0 ≤ u := by have := abs_nonneg (P - a * u); omega
  have hsep : u ≤ |b * u - a * u| := by
    rw [← sub_mul, abs_mul, abs_of_nonneg hu]
    exact le_mul_of_one_le_left hu (Int.one_le_abs (sub_ne_zero.mpr hne))
  have htri := abs_sub_le (b * u) P (a * u)
  rw [abs_sub_comm (b * u) P] at htri
  exact ⟨by omega, fun _ he => by omega⟩

/-- A number with a magnitude of `p` bits in a finer unit lies below every full `p`-bit magnitude of the coarser unit. -/
theorem finer_unit_lt {p m' k' sh : Nat} (hp : 1 ≤ p) (hm : m' < 2 ^ p) (hk : k' < sh) :
    m' * 2 ^ k' < 2 ^ (p - 1) * 2 ^ sh :=
  calc m' * 2 ^ k' < 2 ^ p * 2 ^ k' := Nat.mul_lt_mul_of_pos_right hm (Nat.two_pow_pos k')
    _ ≤ 2 ^ (p - 1) * 2 ^ sh := by
      rw [← pow_add, ← pow_add]
      exact Nat.pow_le_pow_right (by norm_num) (by omega)

/-- What rounding to nearest gives (`roundTo_rne`) is the nearest number with a magnitude of `p` bits, an even one on a
tie. -/
theorem nearest_of_within_half {p P m k sh : Nat} (hp : 1 ≤ p) (hl : 2 ^ (p - 1) ≤ m) (hu : m < 2 ^ p) (hk : sh ≤ k)
    (hP : 2 ^ (p - 1) * 2 ^ sh ≤ P) (hd : 2 * |(P : Int) - m * 2 ^ k| ≤ 2 ^ sh)
    (he : 2 * |(P : Int) - m * 2 ^ k| = 2 ^ sh → m % 2 = 0) : Nearest p P m k := by
  obtain ⟨c, rfl⟩ := Nat.exists_eq_add_of_le' hk
  have hX : (m : Int) * 2 ^ (c + sh) = (m * 2 ^ c : Nat) * 2 ^ sh := by push_cast; ring
  rw [hX] at hd he
  have hcmp (m' k' : Nat) (hm : m' < 2 ^ p) :
      |(P : Int) - (m * 2 ^ c : Nat) * 2 ^ sh| ≤ |(P : Int) - m' * 2 ^ k'| ∧
        (m' * 2 ^ k' ≠ m * 2 ^ (c + sh) → |(P : Int) - m' * 2 ^ k'| = |(P : Int) - (m * 2 ^ c : Nat) * 2 ^ sh| →
          m % 2 = 0) := by
    obtain hk | hk := Nat.lt_or_ge k' sh
    · have hbelow := finer_unit_lt hp hm hk
      have hle := (multiple_within_half_nearest hd (2 ^ (p - 1) : Nat)).1
      have hbelow' : (m' : Int) * 2 ^ k' < (2 ^ (p - 1) : Nat) * 2 ^ sh := by exact_mod_cast hbelow
      have hP' : ((2 ^ (p - 1) : Nat) : Int) * 2 ^ sh ≤ P := by exact_mod_cast hP
      rw [abs_of_nonneg (by omega : (0 : Int) ≤ P - (2 ^ (p - 1) : Nat) * 2 ^ sh)] at hle
      rw [abs_of_nonneg (by omega : (0 : Int) ≤ P - m' * 2 ^ k')]
      exact ⟨by omega, fun _ heq => by omega⟩
    · obtain ⟨i, rfl⟩ := Nat.exists_eq_add_of_le' hk
      have hY : (m' : Int) * 2 ^ (i + sh) = (m' * 2 ^ i : Nat) * 2 ^ sh := by push_cast; ring
      obtain ⟨hle, htie⟩ := multiple_within_half_nearest hd (m' * 2 ^ i : Nat)
      rw [hY]
      refine ⟨hle, fun hne heq => he (htie (fun h => hne ?_) heq)⟩
      rw [pow_add, pow_add, ← mul_assoc, ← mul_assoc, Nat.cast_injective h]
  rw [← hX] at hcmp
  exact ⟨hl, hu, fun m' k' hm => (hcmp m' k' hm).1, fun m' k' hm => (hcmp m' k' hm).2⟩

/-- Rounding to nearest is monotonic. -/
theorem nearest_mono {p P₁ P₂ m₁ k₁ m₂ k₂ : Nat} (h₁ : Nearest p P₁ m₁ k₁) (h₂ : Nearest p P₂ m₂ k₂) (hP : P₁ < P₂) :
    m₁ * 2 ^ k₁ ≤ m₂ * 2 ^ k₂ := by
  obtain ⟨-, hu₁, hn₁, -⟩ := h₁
  obtain ⟨-, hu₂, hn₂, -⟩ := h₂
  have h12 := hn₁ m₂ k₂ hu₂
  have h21 := hn₂ m₁ k₁ hu₁
  by_contra hlt
  have hlt' : (m₂ : Int) * 2 ^ k₂ < m₁ * 2 ^ k₁ := by exact_mod_cast not_le.mp hlt
  have hP' : (P₁ : Int) < P₂ := by exact_mod_cast hP
  linarith [sq_le_sq.mpr h12, sq_le_sq.mpr h21, mul_pos (sub_pos.mpr hlt') (sub_pos.mpr hP')]

/-! ### The scale constant -/

/-- In a coarser unit the value is an integer `v` times `2 ^ j`, and `INV * 2147483647` misses `2 ^ 83` by `2 ^ 21`. -/
theorem inv_nearest_integer (v : Int) : 2 ^ 21 ≤ |v * 2147483647 - 2 ^ 83| := by
  rw [le_abs]; omega

/-- Settles O33: a finer unit than that of `INV` leaves the number below `2 ^ -31`, which is further away. -/
theorem scaleConstant : Obligations.ScaleConstant := by
  refine ⟨by decide +kernel, rfl, rfl, fun m k j hm => ?_⟩
  have hmag : |(inv.mag : Int) * 2147483647 - 2 ^ 83| = 2 ^ 21 := by decide +kernel
  rw [hmag, pow_add]
  obtain hk | hk := Nat.lt_or_ge k j
  · have hv : (m : Int) * 2 ^ k < 2 ^ 52 * 2 ^ j := by exact_mod_cast finer_unit_lt (p := 53) (by norm_num) hm hk
    have hj : (0 : Int) < 2 ^ j := by positivity
    rw [abs_sub_comm, abs_of_nonneg] <;> linarith
  · obtain ⟨i, rfl⟩ := Nat.exists_eq_add_of_le' hk
    have hscale : (m : Int) * 2 ^ (i + j) * 2147483647 - 2 ^ 83 * 2 ^ j =
        ((m * 2 ^ i : Nat) * 2147483647 - 2 ^ 83) * 2 ^ j := by rw [pow_add]; push_cast; ring
    rw [hscale, abs_mul, abs_of_nonneg (by positivity : (0 : Int) ≤ 2 ^ j)]
    exact mul_le_mul_of_nonneg_right (inv_nearest_integer _) (by positivity)

/-! ### The product with `INV` and its patterns -/

theorem word_ne_zero_iff {d : Word} : d ≠ 0#32 ↔ d.toInt ≠ 0 := by
  rw [ne_eq, ne_eq, ← BitVec.toInt_inj]; rfl

/-- R90: the exact product of a draw with `INV`, in units of `2 ^ -83`. -/
theorem ofDraw_mul_inv (d : Word) :
    (ofDraw d).mul inv = ⟨decide (d.toInt < 0), d.toInt.natAbs * (2 ^ 52 + 2 ^ 21), -83⟩ := by
  simp [Dyadic.mul, ofDraw, inv]

/-- R90: a draw other than 0 scales to a normal number of 53 bits, the nearest to the product, below 2 in magnitude. -/
theorem scaleDraw_of_ne_zero {d : Word} (hd : d ≠ 0#32) :
    ∃ m k : Nat, scaleDraw d = ⟨decide (d.toInt < 0), m, -83 + k⟩ ∧ k ≤ 32 ∧
      Nearest 53 (d.toInt.natAbs * (2 ^ 52 + 2 ^ 21)) m k := by
  have hne := word_ne_zero_iff.mp hd
  have hb := toInt_bounds d
  simp only [minInt, maxInt] at hb
  have hlow : 2 ^ (53 - 1) ≤ ((ofDraw d).mul inv).mag := by
    rw [ofDraw_mul_inv]; dsimp only; omega
  obtain ⟨m, k, sh, hr, hl, hu, hk, hP, -, hhalf, heven⟩ := roundTo_rne (p := 53) (by norm_num) hlow
  rw [ofDraw_mul_inv] at hr hP hhalf heven
  dsimp only at hr hP hhalf heven
  have hsh : sh < 32 := by
    by_contra h
    have h32 : 2 ^ 32 ≤ 2 ^ sh := Nat.pow_le_pow_right (by norm_num) (not_lt.mp h)
    omega
  refine ⟨m, k, by rw [scaleDraw, Config.f64Round, ofDraw_mul_inv, hr], by omega, ?_⟩
  exact nearest_of_within_half (by norm_num) hl hu (by omega) hP hhalf heven

/-- R8: the binary64 pattern of a normal number: sign, biased exponent, fraction. -/
theorem bits64_toNat {m k : Nat} (neg : Bool) (hl : 2 ^ 52 ≤ m) (hu : m < 2 ^ 53) (hk : k ≤ 32) :
    (bits64 ⟨neg, m, -83 + k⟩).toNat = (if neg then 2 ^ 63 else 0) + (992 + k) * 2 ^ 52 + (m - 2 ^ 52) := by
  have hexp : ((-83 : Int) + k + (53 : Nat) - 1 + (1023 : Nat)).toNat = 992 + k := by omega
  rw [bits64, ieeePattern_normal 11 1023 neg _ (by norm_num) hl hu, hexp, BitVec.toNat_ofNat, Nat.mod_eq_of_lt]
  cases neg <;> simp <;> omega

/-- R8: the binary32 pattern of a normal number. -/
theorem bits32_toNat {m : Nat} {e : Int} (neg : Bool) (hl : 2 ^ 23 ≤ m) (hu : m < 2 ^ 24) (he : e < 105) :
    (bits32 ⟨neg, m, e⟩).toNat = (if neg then 2 ^ 31 else 0) + (e + 150).toNat * 2 ^ 23 + (m - 2 ^ 23) := by
  have hexp : (e + (24 : Nat) - 1 + (127 : Nat)).toNat = (e + 150).toNat := by congr 1; omega
  rw [bits32, ieeePattern_normal 8 127 neg _ (by norm_num) hl hu, hexp, BitVec.toNat_ofNat, Nat.mod_eq_of_lt]
  cases neg <;> simp <;> omega

/-- R89: narrowing a 53-bit magnitude cuts 29 bits off; where the 24 bits left are rounded up, the carry runs into the
exponent. -/
theorem bits32_narrow32_toNat {m k : Nat} (mode : Rounding) (neg : Bool) (hl : 2 ^ 52 ≤ m) (hu : m < 2 ^ 53)
    (hk : k ≤ 32) : (bits32 (narrow32 mode ⟨neg, m, -83 + k⟩)).toNat =
      (if neg then 2 ^ 31 else 0) + (96 + k) * 2 ^ 23 + (m / 2 ^ 29 - 2 ^ 23) +
        (if roundsUp mode (m / 2 ^ 29) (m % 2 ^ 29) 29 then 1 else 0) := by
  have hsh : bitLength m - 24 = 29 := by rw [bitLength_eq (p := 53) (by norm_num) hl hu]
  have hq : 2 ^ 23 ≤ m / 2 ^ 29 ∧ m / 2 ^ 29 < 2 ^ 24 := by omega
  simp only [narrow32, roundTo, hsh]
  generalize m / 2 ^ 29 = q at *
  cases roundsUp mode q (m % 2 ^ 29) 29 with
  | false =>
    rw [if_neg Bool.false_ne_true, if_neg Bool.false_ne_true, if_neg hq.2.ne,
      bits32_toNat neg hq.1 hq.2 (by omega)]
    omega
  | true =>
    rw [if_pos rfl, if_pos rfl]
    by_cases hcarry : q + 1 = 2 ^ 24
    · rw [if_pos hcarry, bits32_toNat neg (by norm_num) (by norm_num) (by omega)]
      omega
    · rw [if_neg hcarry, bits32_toNat neg (by omega) (by omega) (by omega)]
      omega

/-! ### binary64 and binary32 -/

/-- The fields of the binary64 pattern of a normal number. -/
theorem bits64_fields {m k : Nat} (neg : Bool) (hl : 2 ^ 52 ≤ m) (hu : m < 2 ^ 53) (hk : k ≤ 32) :
    (bits64 ⟨neg, m, -83 + k⟩).toNat / 2 ^ 63 = (if neg then 1 else 0) ∧
      (bits64 ⟨neg, m, -83 + k⟩).toNat / 2 ^ 52 % 2 ^ 11 = 992 + k ∧
      (bits64 ⟨neg, m, -83 + k⟩).toNat % 2 ^ 52 = m - 2 ^ 52 := by
  rw [bits64_toNat neg hl hu hk]
  cases neg <;> simp <;> omega

/-- The fields of a normal number narrowed toward zero. -/
theorem bits32_rtz_fields {m k : Nat} (neg : Bool) (hl : 2 ^ 52 ≤ m) (hu : m < 2 ^ 53) (hk : k ≤ 32) :
    (bits32 (narrow32 .rtz ⟨neg, m, -83 + k⟩)).toNat / 2 ^ 31 = (if neg then 1 else 0) ∧
      (bits32 (narrow32 .rtz ⟨neg, m, -83 + k⟩)).toNat / 2 ^ 23 % 2 ^ 8 = 96 + k ∧
      (bits32 (narrow32 .rtz ⟨neg, m, -83 + k⟩)).toNat % 2 ^ 23 = m / 2 ^ 29 - 2 ^ 23 := by
  rw [bits32_narrow32_toNat .rtz neg hl hu hk, roundsUp]
  cases neg <;> simp <;> omega

/-- R90, R93: the pattern of a scaled draw. -/
theorem bits64_scaleDraw_roundedProduct (d : Word) : RoundedProduct d.toInt (bits64 (scaleDraw d)) := by
  refine ⟨fun h0 => ?_, fun hne => ?_⟩
  · rw [word_ext (h0.trans BitVec.toInt_zero.symm), scaleDraw_zero]; rfl
  · obtain ⟨m, k, hs, hk, hn⟩ := scaleDraw_of_ne_zero (word_ne_zero_iff.mpr hne)
    obtain ⟨hsign, hexp, hfrac⟩ := bits64_fields (decide (d.toInt < 0)) hn.1 hn.2.1 hk
    rw [hs, hsign, hexp, hfrac, Nat.add_sub_cancel' hn.1, Nat.add_sub_cancel_left]
    exact ⟨by simp, by omega, by omega, hn⟩

theorem oneDraw_sampleF64 : OneDraw .sampleF64 64 fun d => bits64 (scaleDraw d) :=
  oneDraw_of_sample (fun _ => rfl) fun _ => rfl

theorem oneDraw_sampleF32 : OneDraw .sampleF32 32 fun d => bits32 (narrow32 .rtz (scaleDraw d)) :=
  oneDraw_of_sample (fun _ => rfl) fun _ => rfl

/-- Settles O34, by what rounding to nearest gives and the fields of the pattern. -/
theorem sampleF64RoundsProduct : Obligations.SampleF64RoundsProduct :=
  ⟨fun s hs => ⟨_, oneDraw_sampleF64 s hs, bits64_scaleDraw_roundedProduct _⟩,
    needsSeed_of_not_seed_not_decimal rfl rfl, sampleWord_of_sampleOf (by decide) rfl⟩

/-- A draw of 0 narrows to +0 (R89). -/
theorem bits32_narrow32_of_zero (mode : Rounding) {d : Word} (hd : d = 0#32) :
    bits32 (narrow32 mode (scaleDraw d)) = 0#32 := by
  rw [hd]
  cases mode <;> decide

/-- R89: narrowing toward zero keeps the sign, rebiases the exponent by 896 and keeps the top 23 bits of the fraction. -/
theorem bits32_rtz_truncates {d : Word} (hd : d ≠ 0#32) :
    (bits32 (narrow32 .rtz (scaleDraw d))).toNat / 2 ^ 31 = (bits64 (scaleDraw d)).toNat / 2 ^ 63 ∧
      (bits32 (narrow32 .rtz (scaleDraw d))).toNat / 2 ^ 23 % 2 ^ 8 + 896 =
        (bits64 (scaleDraw d)).toNat / 2 ^ 52 % 2 ^ 11 ∧
      (bits32 (narrow32 .rtz (scaleDraw d))).toNat % 2 ^ 23 = (bits64 (scaleDraw d)).toNat % 2 ^ 52 / 2 ^ 29 := by
  obtain ⟨m, k, hs, hk, hl, hu, -⟩ := scaleDraw_of_ne_zero hd
  obtain ⟨hsign, hexp, hfrac⟩ := bits64_fields (decide (d.toInt < 0)) hl hu hk
  obtain ⟨hsign', hexp', hfrac'⟩ := bits32_rtz_fields (decide (d.toInt < 0)) hl hu hk
  rw [hs, hsign, hexp, hfrac, hsign', hexp', hfrac']
  exact ⟨rfl, by omega, by omega⟩

/-- Settles O36, field by field of the two patterns. -/
theorem sampleF32Truncates : Obligations.SampleF32Truncates :=
  ⟨fun s hs => ⟨_, oneDraw_sampleF32 s hs, bits32_narrow32_of_zero .rtz,
      fun hne => ⟨_, bits64_scaleDraw_roundedProduct _, bits32_rtz_truncates hne⟩⟩,
    needsSeed_of_not_seed_not_decimal rfl rfl, sampleWord_of_sampleOf (by decide) rfl⟩

/-! ### Draws in range -/

/-- Normal magnitudes with their powers of two are ordered as their patterns are. -/
theorem normal_lex {m₁ k₁ m₂ k₂ : Nat} (hl₁ : 2 ^ 52 ≤ m₁) (hu₁ : m₁ < 2 ^ 53) (hl₂ : 2 ^ 52 ≤ m₂) (hu₂ : m₂ < 2 ^ 53)
    (h : m₁ * 2 ^ k₁ ≤ m₂ * 2 ^ k₂) : k₁ * 2 ^ 52 + m₁ ≤ k₂ * 2 ^ 52 + m₂ := by
  obtain hk | rfl | hk := Nat.lt_trichotomy k₁ k₂
  · omega
  · have := Nat.le_of_mul_le_mul_right h (Nat.two_pow_pos k₁)
    omega
  · have hlt := finer_unit_lt (p := 53) (by norm_num) hu₂ hk
    have hle := Nat.mul_le_mul_right (2 ^ k₁) hl₁
    exact absurd (hlt.trans_le (hle.trans h)) (lt_irrefl _)

/-- An in-range draw other than 0 scales to a positive normal number. -/
theorem scaleDraw_of_inRange {d : Word} (hr : InRange d) (hd : d ≠ 0#32) :
    ∃ m k : Nat, scaleDraw d = ⟨false, m, -83 + k⟩ ∧ k ≤ 32 ∧
      Nearest 53 (d.toInt.natAbs * (2 ^ 52 + 2 ^ 21)) m k := by
  obtain ⟨m, k, hs, h⟩ := scaleDraw_of_ne_zero hd
  exact ⟨m, k, by rw [hs, decide_eq_false (not_lt.mpr hr.1)], h⟩

/-- R90: the mapping of the in-range draws is monotonic. -/
theorem bits64_scaleDraw_mono {d₁ d₂ : Word} (hr₁ : InRange d₁) (hr₂ : InRange d₂) (h : d₁.toInt ≤ d₂.toInt) :
    (bits64 (scaleDraw d₁)).toNat ≤ (bits64 (scaleDraw d₂)).toNat := by
  obtain heq | hlt := h.eq_or_lt
  · rw [word_ext heq]
  by_cases hz : d₁ = 0#32
  · rw [hz, scaleDraw_zero]; exact Nat.zero_le _
  have hz₂ : d₂ ≠ 0#32 := word_ne_zero_iff.mpr (by have := hr₁.1; omega)
  obtain ⟨m₁, k₁, hs₁, hk₁, hn₁⟩ := scaleDraw_of_inRange hr₁ hz
  obtain ⟨m₂, k₂, hs₂, hk₂, hn₂⟩ := scaleDraw_of_inRange hr₂ hz₂
  have hP : d₁.toInt.natAbs * (2 ^ 52 + 2 ^ 21) < d₂.toInt.natAbs * (2 ^ 52 + 2 ^ 21) := by
    have := hr₁.1; omega
  have hle := nearest_mono hn₁ hn₂ hP
  obtain ⟨hl₁, hu₁, -⟩ := hn₁
  obtain ⟨hl₂, hu₂, -⟩ := hn₂
  have hlex := normal_lex hl₁ hu₁ hl₂ hu₂ hle
  rw [hs₁, hs₂, bits64_toNat false hl₁ hu₁ hk₁, bits64_toNat false hl₂ hu₂ hk₂]
  omega

/-- R90: the pattern of the largest in-range draw bounds all of them. -/
theorem bits64_scaleDraw_le {d : Word} (hr : InRange d) : (bits64 (scaleDraw d)).toNat ≤ 0x3FEFFFFFFFC00000 := by
  have hmax : (bits64 (scaleDraw 2147483646#32)).toNat = 0x3FEFFFFFFFC00000 := by decide +kernel
  rw [← hmax]
  refine bits64_scaleDraw_mono hr (by decide) ?_
  rw [show (2147483646#32).toInt = 2147483646 by decide]
  exact Int.le_of_lt_add_one hr.2

/-- Settles O35, by the largest in-range draw and the mapping's order. -/
theorem f64InUnitInterval : Obligations.F64InUnitInterval :=
  ⟨fun s hs hx => ⟨_, oneDraw_sampleF64 s hs, bits64_scaleDraw_le (draw_slotsInRange hx).1⟩, by decide,
    by decide +kernel, fun _ _ => bits64_scaleDraw_mono⟩

/-- Of the magnitude kept only its last bit decides whether rounding goes up. -/
theorem roundsUp_congr (mode : Rounding) {q q' : Nat} (h : q % 2 = q' % 2) (r sh : Nat) :
    roundsUp mode q r sh = roundsUp mode q' r sh := by
  cases mode with
  | rtz => rfl
  | rne => simp only [roundsUp, h]

/-- R89: narrowing rebiases the pattern and rounds its last 29 bits off, the carry into the exponent included. -/
theorem bits32_narrow32_of_inRange (mode : Rounding) {d : Word} (hr : InRange d) (hd : d ≠ 0#32) :
    (bits32 (narrow32 mode (scaleDraw d))).toNat + 896 * 2 ^ 23 = (bits64 (scaleDraw d)).toNat / 2 ^ 29 +
      (if roundsUp mode ((bits64 (scaleDraw d)).toNat / 2 ^ 29) ((bits64 (scaleDraw d)).toNat % 2 ^ 29) 29
        then 1 else 0) := by
  obtain ⟨m, k, hs, hk, hl, hu, -⟩ := scaleDraw_of_inRange hr hd
  have hb := bits64_toNat false hl hu hk
  rw [if_neg Bool.false_ne_true] at hb
  rw [hs, bits32_narrow32_toNat mode false hl hu hk, if_neg Bool.false_ne_true,
    roundsUp_congr mode (q := (bits64 _).toNat / 2 ^ 29) (q' := m / 2 ^ 29) (by omega),
    show (bits64 ⟨false, m, -83 + k⟩).toNat % 2 ^ 29 = m % 2 ^ 29 by omega]
  omega

/-- R89: narrowed toward zero the pattern stays below that of 1.0. -/
theorem bits32_rtz_le {d : Word} (hr : InRange d) : (bits32 (narrow32 .rtz (scaleDraw d))).toNat ≤ 0x3F7FFFFF := by
  by_cases hz : d = 0#32
  · rw [bits32_narrow32_of_zero _ hz]; exact Nat.zero_le _
  have hle := bits64_scaleDraw_le hr
  have hn := bits32_narrow32_of_inRange .rtz hr hz
  rw [roundsUp, if_neg Bool.false_ne_true] at hn
  omega

/-- The in-range draws from 2147483583 up are those whose pattern is at least halfway from the last binary32 number below
1.0 to 1.0. -/
theorem halfway_le_bits64_iff {d : Word} (hr : InRange d) :
    0x3FEFFFFFF0000000 ≤ (bits64 (scaleDraw d)).toNat ↔ 2147483583 ≤ d.toInt := by
  have hfirst : (bits64 (scaleDraw 2147483583#32)).toNat = 0x3FEFFFFFF0000000 := by decide +kernel
  have hbefore : (bits64 (scaleDraw 2147483582#32)).toNat < 0x3FEFFFFFF0000000 := by decide +kernel
  constructor
  · intro h
    by_contra hlt
    have hle : d.toInt ≤ (2147483582#32).toInt := by
      rw [show (2147483582#32).toInt = 2147483582 by decide]; omega
    have := bits64_scaleDraw_mono hr (by decide) hle
    omega
  · intro h
    rw [← hfirst]
    exact bits64_scaleDraw_mono (by decide) hr h

/-- C4: narrowed to nearest the pattern is at most that of 1.0, and is that exactly from halfway up. -/
theorem bits32_rne_le {d : Word} (hr : InRange d) :
    (bits32 (narrow32 .rne (scaleDraw d))).toNat ≤ 0x3F800000 ∧
      ((bits32 (narrow32 .rne (scaleDraw d))).toNat = 0x3F800000 ↔
        0x3FEFFFFFF0000000 ≤ (bits64 (scaleDraw d)).toNat) := by
  by_cases hz : d = 0#32
  · rw [bits32_narrow32_of_zero _ hz, hz, scaleDraw_zero]; decide
  have hle := bits64_scaleDraw_le hr
  have hn := bits32_narrow32_of_inRange .rne hr hz
  simp only [roundsUp, Bool.or_eq_true, Bool.and_eq_true, decide_eq_true_eq] at hn
  split at hn <;> omega

/-- Settles O37, by the patterns at the two ends of the range and at the halfway point below 1.0. -/
theorem f32InUnitInterval : Obligations.F32InUnitInterval := by
  refine ⟨fun s hs hx => ⟨_, oneDraw_sampleF32 s hs, bits32_rtz_le (draw_slotsInRange hx).1⟩, fun d hr => ?_⟩
  obtain ⟨hle, hiff⟩ := bits32_rne_le hr
  refine ⟨hle, ?_⟩
  rw [← halfway_le_bits64_iff hr, ← hiff, ← BitVec.toNat_inj]; rfl

end Sys2Proof.Machine

/-! ## 42_type_adapter_fill.md: a FILL runs the value function of its SAMPLE -/

namespace Sys2Proof.Machine

open Sys2Proof.Claim

theorem after_add (j k : Nat) (e : Engine) : after (j + k) e = after k (after j e) := by
  simp only [after, drawMany_add]

/-! ### The loop of a FILL -/

/-- R100: where a value makes `per` draws, `n` values make `n * per`. -/
theorem fillValues_engine {value : ValueFn} {per : Nat} (hv : ∀ e, (value e).2 = after per e) (n : Nat) (e : Engine) :
    (fillValues value n e).2 = after (n * per) e := by
  induction n generalizing e with
  | zero => rw [Nat.zero_mul]; rfl
  | succ n ih => rw [Nat.succ_mul, Nat.add_comm (n * per), after_add, ← hv e]; exact ih _

theorem fillValues_length (value : ValueFn) (n : Nat) (e : Engine) : (fillValues value n e).1.length = n := by
  induction n generalizing e with
  | zero => rfl
  | succ n ih => simp only [fillValues, List.length_cons, ih]

/-- R100: beat `k` is the value of the engine that the values before it leave. -/
theorem fillValues_getElem (value : ValueFn) (n : Nat) (e : Engine) (k : Nat)
    (h : k < (fillValues value n e).1.length) :
    (fillValues value n e).1[k] = (value (fillValues value k e).2).1 := by
  induction n generalizing e k with
  | zero => exact absurd h (Nat.not_lt_zero k)
  | succ n ih =>
    cases k with
    | zero => rfl
    | succ k => exact ih _ k (Nat.lt_of_succ_lt_succ h)

/-- Values in two groups are the values in one. -/
theorem fillValues_add (value : ValueFn) (m n : Nat) (e : Engine) :
    fillValues value (m + n) e = ((fillValues value m e).1 ++ (fillValues value n (fillValues value m e).2).1,
      (fillValues value n (fillValues value m e).2).2) := by
  induction m generalizing e with
  | zero => rw [Nat.zero_add]; rfl
  | succ m ih => rw [Nat.succ_add]; simp only [fillValues, ih, List.cons_append]

/-- R100: a FILL where there is a generator. -/
theorem fillWith_of_seeded (value : ValueFn) (n : Nat) {s : State} (hs : s.seeded = true) :
    fillWith value n s = answered s (fillValues value n s.engine).2 (fillValues value n s.engine).1 :=
  ifSeeded_of_seeded hs _

/-- R114: `n` SAMPLEs in a row leave the engine of a fill of `n` values and emit its beats, each with its own
`DONE(OK)`. -/
theorem repeatExec_sample {i : Instr} {value : ValueFn} (hi : ∀ s, exec i s = .next (sampleWith value s)) (n : Nat)
    {s : State} (hs : s.seeded = true) :
    repeatExec i n s = .next { s with
      engine := (fillValues value n s.engine).2
      out := s.out ++ (fillValues value n s.engine).1.flatMap fun b => [b, .done .ok] } := by
  induction n generalizing s with
  | zero => simp [repeatExec, fillValues]
  | succ n ih =>
    simp only [repeatExec, hi, sampleWith_of_seeded value hs]
    rw [ih (s := answered s _ _) hs]
    simp [answered, fillValues]

/-! ### A FILL and its SAMPLE -/

/-- `fill` and `sample` are the FILL and the SAMPLE of one value function, of `per` draws a value (R80, R100). -/
def SharesValue (fill : Nat → Instr) (sample : Instr) (per : Nat) : Prop :=
  ∃ value : ValueFn, (∀ e, (value e).2 = after per e) ∧ (∀ n s, exec (fill n) s = .next (fillWith value n s)) ∧
    ∀ s, exec sample s = .next (sampleWith value s)

/-- R101 to R110, R112: the value function of each type. -/
theorem forall_fillTypes_sharesValue (size : Nat) : ∀ p ∈ fillTypes size, SharesValue p.1 p.2.1 p.2.2 := by
  simp only [fillTypes, List.forall_mem_cons]
  exact ⟨⟨valueI8, fun _ => rfl, fun _ _ => rfl, fun _ => rfl⟩, ⟨valueI16, fun _ => rfl, fun _ _ => rfl, fun _ => rfl⟩,
    ⟨valueI32, fun _ => rfl, fun _ _ => rfl, fun _ => rfl⟩, ⟨valueI64, fun _ => rfl, fun _ _ => rfl, fun _ => rfl⟩,
    ⟨valueU8, fun _ => rfl, fun _ _ => rfl, fun _ => rfl⟩, ⟨valueU16, fun _ => rfl, fun _ _ => rfl, fun _ => rfl⟩,
    ⟨valueU32, fun _ => rfl, fun _ _ => rfl, fun _ => rfl⟩, ⟨valueU64, fun _ => rfl, fun _ _ => rfl, fun _ => rfl⟩,
    ⟨valueF32, fun _ => rfl, fun _ _ => rfl, fun _ => rfl⟩, ⟨valueF64, fun _ => rfl, fun _ _ => rfl, fun _ => rfl⟩,
    ⟨valueRaw size, fun _ => rfl, fun _ _ => rfl, fun _ => rfl⟩, nofun⟩

theorem sharesValue_of_mem {size : Nat} {fill : Nat → Instr} {sample : Instr} {per : Nat}
    (h : (fill, sample, per) ∈ fillTypes size) : SharesValue fill sample per :=
  forall_fillTypes_sharesValue size _ h

/-- R100, R122. -/
theorem SharesValue.needsSeed {fill : Nat → Instr} {sample : Instr} {per : Nat} (h : SharesValue fill sample per)
    (n : Nat) : NeedsSeed (fill n) := by
  obtain ⟨value, -, hfill, -⟩ := h
  exact fun s h0 => (hfill n s).trans (congrArg _ (ifSeeded_of_not_seeded h0 _))

/-- Settles O42: beat `k` of the loop is the SAMPLE's value of the engine that `k` values leave. -/
theorem fillRuns : Obligations.FillRuns := by
  intro size n s fill sample per hmem
  have hshare := sharesValue_of_mem hmem
  refine ⟨hshare.needsSeed n, fun hs => ?_⟩
  obtain ⟨value, hdraws, hfill, hsample⟩ := hshare
  refine ⟨(fillValues value n s.engine).1, ?_, fillValues_length value n s.engine, fun k hk => ?_⟩
  · rw [hfill, fillWith_of_seeded value n hs, fillValues_engine hdraws]
  · rw [hsample, sampleWith_of_seeded value (s := { s with engine := after (k * per) s.engine }) hs, hdraws,
      fillValues_getElem, fillValues_engine hdraws, Nat.succ_mul, after_add]; rfl

/-- Settles O44: the SAMPLEs run the loop one value at a time, and the loop of a sum is the two loops in a row. -/
theorem fillEquivalence : Obligations.FillEquivalence := by
  intro size s fill sample per hmem hs
  obtain ⟨value, -, hfill, hsample⟩ := sharesValue_of_mem hmem
  have hrun (n : Nat) {t : State} (ht : t.seeded = true) :=
    (hfill n t).trans (congrArg _ (fillWith_of_seeded value n ht))
  refine ⟨fun n => ⟨_, _, _, hrun n hs, repeatExec_sample hsample n hs, rfl, rfl, rfl⟩, fun n1 n2 => ?_⟩
  have hsum := fillValues_add value n1 n2 s.engine
  refine ⟨_, _, _, _, _, hrun n1 hs, hrun n2 hs, hrun (n1 + n2) hs, rfl, rfl, ?_, ?_⟩
  all_goals rw [hsum]; rfl

/-- Settles O45: the loop does not start, and the errors are raised before it. -/
theorem fillZero : Obligations.FillZero := by
  refine ⟨fun size s fill sample per hmem => ⟨fun hs => ?_, (sharesValue_of_mem hmem).needsSeed 0 s⟩,
    fun type s ht => ?_⟩
  · obtain ⟨value, -, hfill, -⟩ := sharesValue_of_mem hmem
    rw [hfill, fillWith_of_seeded value 0 hs]; rfl
  · exact runCommand_of_badType ⟨.inr (opcField_mkCommand ..), .inl (by rwa [typeField_mkCommand])⟩ s

/-! ### The words of the FILLs -/

/-- R43: the TYPE of each of the ten FILLs is below decimal and RAW, and selects it. -/
theorem forall_fillCodes_fillOf :
    ∀ p ∈ fillCodes, p.1.toNat < 0x0A ∧ ∀ n, fillOf p.1.toNat 0 n = .ok (p.2 n) := by
  simp only [fillCodes, List.forall_mem_cons]
  exact ⟨⟨by decide, fun _ => rfl⟩, ⟨by decide, fun _ => rfl⟩, ⟨by decide, fun _ => rfl⟩, ⟨by decide, fun _ => rfl⟩,
    ⟨by decide, fun _ => rfl⟩, ⟨by decide, fun _ => rfl⟩, ⟨by decide, fun _ => rfl⟩, ⟨by decide, fun _ => rfl⟩,
    ⟨by decide, fun _ => rfl⟩, ⟨by decide, fun _ => rfl⟩, nofun⟩

theorem fillOf_of_mem_fillCodes {t : BitVec 8} {fill : Nat → Instr} (h : (t, fill) ∈ fillCodes) :
    t.toNat < 0x0A ∧ ∀ n, fillOf t.toNat 0 n = .ok (fill n) :=
  forall_fillCodes_fillOf _ h

/-- R45: SIZE must be zero in a FILL word of a type that is neither decimal nor RAW. -/
theorem decode_fill_badSize {t : BitVec 8} (ht : t.toNat < 0x0A) {size : BitVec 16} (hz : size ≠ 0#16)
    (imm : BitVec 32) : decode (mkCommand 0x04#8 t size imm) = .error .illegalCommand := by
  have hd : t ≠ 0x0A#8 := fun h => by simp [h] at ht
  have hr : t ≠ 0x0B#8 := fun h => by simp [h] at ht
  refine decode_of_badFields (.inr (.inr (.inr ⟨opcField_mkCommand .., ?_⟩))) ?_
  · simpa [hr] using hz
  · simp only [BadType, typeField_mkCommand, hd, false_and, or_false]
    omega

/-- R47, R111: a decimal FILL word with a non-zero SIZE is rejected for its TYPE. -/
theorem decode_fillDec_badSize {size : BitVec 16} (hz : size ≠ 0#16) (imm : BitVec 32) :
    decode (mkCommand 0x04#8 0x0A#8 size imm) = .error .unsupportedType := by
  rw [decode_of_opc_fill (opcField_mkCommand ..)]
  simp [hz]

/-- Settles O43: the decoder's line for a FILL, by the TYPE. -/
theorem fillWords : Obligations.FillWords := by
  refine ⟨fun type fill hmem n hn => ?_, fun n hn => ⟨?_, fun size hz => decode_fillDec_badSize hz _⟩,
    fun size n hs hn => ?_⟩
  · obtain ⟨ht, hfill⟩ := fillOf_of_mem_fillCodes hmem
    exact ⟨(decode_fillWord (by omega) hn).trans (hfill n), fun size hz => decode_fill_badSize ht hz _⟩
  · exact decode_fillWord (t := 0x0A#8) (by decide) hn
  · rw [decode_rawFill, toNat_ofNat_size hs, toNat_ofNat_count hn]

end Sys2Proof.Machine

/-! ## 60_exceptions.md: which error a word reports, and what an error leaves -/

namespace Sys2Proof.Machine

open Sys2Proof.Claim
open Sys2Proof.Laws.CommandFields (opc type)

/-! ### The error of R124 -/

theorem runCommand_of_ok {w : Command} {i : Instr} (h : decode w = .ok i) (s : State) : runCommand w s = exec i s := by
  simp only [runCommand, h]

/-- R42: SEED is the command of OPC 0x01. -/
theorem isSeed_eq (i : Instr) : isSeed i = decide (opc i = 0x01#8) := by
  cases i <;> rfl

/-- R43: the decimal commands are those of TYPE 0x0A. -/
theorem isDecimal_eq (i : Instr) : isDecimal i = decide (type i = 0x0A#8) := by
  cases i <;> rfl

/-- R42, R43: the OPC and TYPE of a word that decodes are those of its command. -/
theorem opc_type_of_decode {w : Command} {i : Instr} (h : decode w = .ok i) :
    opcField w = opc i ∧ typeField w = type i := by
  obtain ⟨ho, ht, -⟩ := (selected_iff w i).mp (selected_of_decode h)
  exact ⟨ho, ht⟩

/-- R48: a word of an accepted OPC and TYPE whose must-be-zero fields are 0 decodes, and is of no decimal type. -/
theorem decode_of_accepted {w : Command} (ho : ¬ BadOpc w) (ht : ¬ BadType w) (hf : ¬ BadFields w) :
    (∃ i, decode w = .ok i) ∧ typeField w ≠ 0x0A#8 := by
  simp only [BadFields, not_or, not_and, not_not] at hf
  obtain ⟨hseed, hdraw, hsample, hfill⟩ := hf
  simp only [BadType, not_and, not_or, not_le] at ht
  obtain ho | ho | ho | ho := (opc_cases w).resolve_left ho
  · obtain ⟨h0, hz⟩ := hseed ho
    exact ⟨⟨_, by rw [decode_of_opc_seed ho, if_neg (by simp [h0, hz])]⟩, by simp [h0]⟩
  · obtain ⟨h0, hz, hm⟩ := hdraw ho
    exact ⟨⟨_, by rw [decode_of_opc_draw ho, if_neg (by simp [h0, hz, hm])]⟩, by simp [h0]⟩
  · obtain ⟨hlt, hdec⟩ := ht (.inl ho)
    obtain ⟨hz, hm⟩ := hsample ho
    rw [decode_sample ho (Nat.le_of_lt_succ hlt) (or_iff_not_imp_left.mpr hz) hm]
    exact ⟨sampleOf_isOk (Nat.le_of_lt_succ hlt) _, fun h => hdec h rfl⟩
  · obtain ⟨hlt, hdec⟩ := ht (.inr ho)
    rw [decode_fill ho (Nat.le_of_lt_succ hlt) (or_iff_not_imp_left.mpr (hfill ho))]
    exact ⟨fillOf_isOk (Nat.le_of_lt_succ hlt) _ _, fun h => hdec h rfl⟩

/-- A SEED, and in the presence of a generator every other command that is not decimal, completes with `DONE(OK)`. -/
theorem exec_completes {i : Instr} {s : State} (hd : isDecimal i = false) (hs : isSeed i = true ∨ s.seeded = true) :
    ∃ t, exec i s = .next t ∧ t.out.getLast? = some (.done .ok) := by
  cases hi : isSeed i with
  | true =>
    obtain ⟨z, rfl⟩ := isSeed_eq_true_iff.mp hi
    exact ⟨_, exec_seed z s, List.getLast?_concat⟩
  | false =>
    obtain ⟨c, -, hx⟩ := exec_drawsExactly hi hd
    refine ⟨_, hx s, ?_⟩
    rw [ifSeeded_of_seeded (hs.resolve_left (by simp [hi]))]
    exact List.getLast?_concat

/-- Settles O7, condition by condition in the order of R124: a word that meets none of the first three decodes to a
command that is not decimal. -/
theorem reportedErrorPriority : Obligations.ReportedErrorPriority := by
  intro w s
  rw [reported]
  split_ifs with ho ht hf hs
  · exact runCommand_of_error (decode_of_badOpc ho) s
  · exact runCommand_of_badType ht s
  · exact runCommand_of_error (decode_of_badFields hf ht) s
  all_goals
    obtain ⟨⟨i, hi⟩, hdec⟩ := decode_of_accepted ho ht hf
    obtain ⟨hopc, htype⟩ := opc_type_of_decode hi
    have hd : isDecimal i = false := by rw [isDecimal_eq, ← htype]; exact decide_eq_false hdec
    have hseed : isSeed i = decide (opcField w = 0x01#8) := by rw [isSeed_eq, hopc]
    rw [runCommand_of_ok hi]
  · obtain ⟨hne, h0⟩ := hs
    exact needsSeed_of_not_seed_not_decimal (hseed.trans (decide_eq_false hne)) hd s h0
  · refine exec_completes hd ((not_and_or.mp hs).imp (fun h1 => ?_) Bool.eq_true_of_not_eq_false)
    exact hseed.trans (decide_eq_true (not_not.mp h1))

/-! ### What an error leaves -/

/-- Settles O48: a word reports an error of R124, which is one record (R125), or completes. -/
theorem errorEntry : Obligations.ErrorEntry := by
  intro w s
  have h := reportedErrorPriority w s
  split at h
  case h_1 st _ => exact ⟨_, st, h, List.getLast?_concat, fun _ => rfl⟩
  case h_2 =>
    obtain ⟨t, ht, hlast⟩ := h
    exact ⟨t, .ok, ht, hlast, fun hne => absurd rfl hne⟩

/-- R51, R126: the records already out have no part in what a word does. -/
theorem runCommand_withOut {w : Command} {s t : State} (h : runCommand w s = .next t) :
    ∃ records, t.out = s.out ++ records ∧
      ∀ out, runCommand w { s with out := out } = .next { t with out := out ++ records } := by
  obtain ⟨z, hw⟩ | ⟨k, hw⟩ | ⟨n, c, -, hw⟩ := runCommand_cases w
  · obtain rfl := next_unique ((hw s).trans (exec_seed z s)) h
    exact ⟨_, rfl, fun _ => hw _⟩
  · obtain rfl := next_unique (hw s) h
    exact ⟨_, rfl, fun _ => hw _⟩
  · obtain hs | hs := Bool.eq_false_or_eq_true s.seeded
    · have hrun (u : State) (hu : u.seeded = true) := (hw u).trans (congrArg _ (ifSeeded_of_seeded hu _))
      obtain rfl := next_unique (hrun s hs) h
      refine ⟨c (drawMany n s.engine).1 ++ [.done .ok], by simp, fun out => ?_⟩
      rw [← List.append_assoc]
      exact hrun { s with out := out } hs
    · have hrun (u : State) (hu : u.seeded = false) := (hw u).trans (congrArg _ (ifSeeded_of_not_seeded hu _))
      obtain rfl := next_unique (hrun s hs) h
      exact ⟨_, rfl, fun out => hrun { s with out := out } hs⟩

/-- Settles O49: after the error the state is the old one but for the records out. -/
theorem errorsNotSticky : Obligations.ErrorsNotSticky := by
  refine fun w v s st hw => ⟨?_, fun t ht => ?_⟩
  · obtain ⟨records, ho, hrun⟩ := runCommand_withOut hw
    obtain rfl := List.append_cancel_left ho
    exact hrun _
  · obtain ⟨records, ho, hrun⟩ := runCommand_withOut ht
    exact ⟨_, hrun _, rfl, rfl, rfl, records, ho, rfl⟩

/-- Settles O50: R122, and SEED as an equation. -/
theorem notSeededBeforeSeed : Obligations.NotSeededBeforeSeed :=
  ⟨fun _ => needsSeed_of_not_seed_not_decimal, fun z s => ⟨_, exec_seed z s, rfl⟩⟩

/-- Settles O10: with an empty queue the step is the idle one. -/
theorem stepIdle : Obligations.StepIdle := fun s h => by simp only [step, h]

end Sys2Proof.Machine

/-! ## 70_reset_and_hazards.md: reset, the draws of a command, seeds that alias -/

namespace Sys2Proof.Machine

open Sys2Proof.Claim

/-! ### Reset -/

/-- R51: a word answers value beats and then one completion record. -/
theorem runCommand_records (w : Command) (s : State) : ∃ u beats st, runCommand w s = .next u ∧
    u.out = s.out ++ beats ++ [.done st] ∧ ∀ r ∈ beats, IsBeat r := by
  obtain ⟨z, hw⟩ | ⟨k, hw⟩ | ⟨n, c, hc, hw⟩ := runCommand_cases w
  · exact ⟨_, [], .ok, (hw s).trans (exec_seed z s), by simp, by simp⟩
  · exact ⟨_, [], errorStatus k, hw s, by simp, by simp⟩
  · obtain hs | hs := Bool.eq_false_or_eq_true s.seeded
    · exact ⟨_, c (drawMany n s.engine).1, .ok, (hw s).trans (congrArg _ (ifSeeded_of_seeded hs _)), rfl, hc _⟩
    · exact ⟨_, [], .notSeeded, (hw s).trans (congrArg _ (ifSeeded_of_not_seeded hs _)), by simp [errorStatus],
        by simp⟩

/-- R51: the value beats of a command are its records without the last. -/
theorem valueBeats_append (before beats : List Record) (r : Record) :
    valueBeats before (before ++ beats ++ [r]) = beats := by
  simp [valueBeats]

/-- A step on a presented word that a reset cuts after `k` of its value beats (R148). -/
theorem step_of_commandCut {s u : State} {w : Command} {k : Nat} {rest : List HostEvent}
    (hc : s.cmd = .commandCut w k :: rest) (hu : runCommand w { s with cmd := rest } = .next u) :
    step s = .next (resetBlock (emit ((valueBeats s.out u.out).take k) { s with cmd := rest })) := by
  simp only [step, hc, serve, cutCommand, hu]

/-- Settles O12: what the whole command answers gives its value beats, and the cut keeps the first `k` of them. -/
theorem stepCutCommand : Obligations.StepCutCommand := by
  intro s w k rest hc
  obtain ⟨u, beats, st, hu, ho, hb⟩ := runCommand_records w { s with cmd := rest }
  refine ⟨u, beats, st, _, hu, ho, hb, step_of_commandCut hc hu, ?_, resetBlock_seeded _, resetBlock_cmd _⟩
  rw [ho, valueBeats_append, resetBlock_out, emit_out]

/-- Settles O11: the step takes the reset off the queue and resets the block. -/
theorem stepReset : Obligations.StepReset := by
  intro s rest hc
  have hstep : step s = .next (resetBlock { s with cmd := rest }) := by simp only [step, hc, serve]
  exact ⟨_, hstep, resetBlock_seeded _, resetBlock_cmd _, resetBlock_out _⟩

/-! ### The draws of a command -/

/-- Every command is executed to completion (R56, R125). -/
theorem exec_next (i : Instr) (s : State) : ∃ t, exec i s = .next t := by
  obtain ⟨z, rfl⟩ | h | ⟨n, c, -, h⟩ := exec_cases i
  · exact ⟨_, exec_seed z s⟩
  · exact ⟨_, h s⟩
  · exact ⟨_, h s⟩

/-- Settles O28: the engine of a command's frame, and a decode error is one record (R125). -/
theorem drawAccounting : Obligations.DrawAccounting := by
  refine ⟨fun i s hi => ?_, fun w s k hk => ⟨_, runCommand_of_error hk s, rfl⟩⟩
  obtain ⟨t, ht⟩ := exec_next i s
  obtain ⟨-, -, -, he⟩ := exec_frame hi ht
  exact ⟨t, ht, he⟩

/-! ### Seeds that alias -/

/-- R62, R63: SEED sees its seed through the subtrahend only. -/
theorem seedFill_of_subtrahend_eq {z z' : Int} (h : subtrahend z = subtrahend z') (x : Vector Word 56) :
    seedFill z x = seedFill z' x := by
  rw [seedFill, seedFill, seedStart, seedStart, h]

theorem seedEngine_of_subtrahend_eq {z z' : Int} (h : subtrahend z = subtrahend z') (e : Engine) :
    seedEngine z e = seedEngine z' e := by
  unfold seedEngine
  rw [seedFill_of_subtrahend_eq h]

theorem exec_seed_of_subtrahend_eq {z z' : Int} (h : subtrahend z = subtrahend z') (s : State) :
    exec (.seed z) s = exec (.seed z') s := by
  rw [exec_seed, exec_seed, seedEngine_of_subtrahend_eq h]

/-- R61: away from MIN_INT the subtrahend is a magnitude. -/
theorem subtrahend_neg {z : Int} (hz : SeedOk z) (hmin : z ≠ -2147483648) : subtrahend z = subtrahend (-z) := by
  have hpos : z ≠ minInt := hmin
  have hneg : -z ≠ minInt := by rw [minInt]; omega
  rw [subtrahend, subtrahend, if_neg hpos, if_neg hneg, abs_neg]

/-- Settles O21: the seeds of each pair have the same subtrahend (R61). -/
theorem seedsAlias : Obligations.SeedsAlias := fun s =>
  ⟨fun _ hz hmin => exec_seed_of_subtrahend_eq (subtrahend_neg hz hmin) s,
    exec_seed_of_subtrahend_eq (by decide) s, exec_seed_of_subtrahend_eq (by decide) s⟩

end Sys2Proof.Machine
